-- ==== Sys2Proof/Word.lean ====
section
/-! DEFINITION. The widths of the machine's values (spec/00_scope.md rules R4, R7, R8). Every value is an
unsigned number of a stated width; `+` on a bit vector is the reduction `mod 2^width` of rule R8. -/

namespace Sys2Proof

/-- 8 bits: a general register, a memory cell, a timer, the immediate kk (rules R4, R91). -/
abbrev Byte := BitVec 8

/-- 16 bits: the instruction word, PC, I, a stack slot (rule R4). -/
abbrev Word := BitVec 16

/-- 4 bits: the fields x, y and n, a register index, WX, a key number (rules R91, R22, R37, R217). -/
abbrev Nibble := BitVec 4

/-- 12 bits: the address field nnn (rule R91). -/
abbrev Addr12 := BitVec 12

end Sys2Proof
end

