-- ==== Sys2Proof/Machine/State.lean ====
section
/-! DEFINITION. The machine's state, all of it and nothing else (spec/10_state.md rule R20), with its reset value
(rule R42). Plain data. The one field that is the model's own is `draws` (assumption log entry 2). -/

namespace Sys2Proof.Machine

/-- The sub-cause of a stack fault (spec/60_exceptions.md rules R200, R202). -/
inductive StackCause where
  /-- 00EE with an empty stack. -/
  | underflow
  /-- 2nnn with a full stack. -/
  | overflow
  deriving DecidableEq, Repr

/-- The four fault causes of the hardware with the info each records (rule R200). They are values of the latch
FAULT: a raising step takes the fault as rule R206 says and answers a NEXT state with FAULT set (log entry 3), so
no step answers `Host.Outcome.fault`. Each is safe: the cause and its info are all that can be learnt of a
faulted machine. -/
inductive Fault where
  /-- Code 1, raised by the decode in `step`: the fetched word matches no row (rule R201). Safe. -/
  | unsupportedInstruction (instr : Word)
  /-- Code 2, raised by `execRet` and `execCall` (rule R202). Safe. -/
  | stackFault (cause : StackCause)
  /-- Code 3, raised by the fetch, `execDrw`, `execLdBVx`, `execLdMemVx` and `execLdVxMem`: the lowest byte
  address at or above 4096 that was to be accessed, a natural number (rule R203). Safe. -/
  | addressingFault (addr : Nat)
  /-- Code 4, raised by `execSkp` and `execSknp`: the register value above 15 (rule R204). Safe. -/
  | keyIndexFault (v : Byte)
  deriving DecidableEq, Repr

/-- Why a step can have no meaning. No instruction is refused, so no step answers a refusal. -/
inductive Refusal where
  /-- An arm of `exec` that has no meaning yet; no arm is left so. Safe. -/
  | notModelled (mnemonic : String)
  deriving DecidableEq, Repr

/-- Memory: the cells that differ from the reset contents, as (address, byte), addresses strictly rising.
`Memory.read` says what an unlisted address reads as; `Memory.wf` says the form holds. -/
abbrev Memory := List Host.Cell

/-- The display `PIX[cx][cy]`: 64 columns of 32 one-bit pixels, the column index first (rule R34). -/
abbrev Pixels := Vector (Vector Bool 32) 64

/-- The complete state of the core (rule R20). -/
structure State where
  /-- V0 to VF (rule R21). -/
  v : Vector Byte 16
  /-- I, the index register (rule R29). -/
  i : Word
  /-- PC, the program counter (rule R25). -/
  pc : Word
  /-- SP, the number of return addresses held, 0 to 16 (rule R30). -/
  sp : Fin 17
  /-- STACK, sixteen return addresses (rule R30). -/
  stack : Vector Word 16
  /-- DT, the delay timer (rule R31). -/
  dt : Byte
  /-- ST, the sound timer (rule R32). -/
  st : Byte
  /-- MEM, 4096 bytes (rule R40). -/
  mem : Memory
  /-- PIX, the display (rule R34). -/
  pix : Pixels
  /-- KEY, sixteen keys, true for pressed (rule R35). -/
  key : Vector Bool 16
  /-- WAIT, the document's waiting_for_input (rule R36). -/
  wait : Bool
  /-- WX, the register that receives the awaited key (rule R37). -/
  wx : Nibble
  /-- FAULT, the terminal fault latch (rule R38). -/
  fault : Option Fault
  /-- THE MODEL'S OWN: how many bytes have been drawn from the random source, so that each draw is a fresh free
  value (log entry 2). -/
  draws : Nat
  deriving DecidableEq, Repr, Inhabited

/-- The state after Reset with the default FONT and an empty PROGRAM (rules R42, R231; log entries 1, 5): nothing is listed in memory, whose unlisted
addresses read as the reset contents. -/
def State.reset : State where
  v := Vector.replicate 16 0
  i := 0
  pc := 0x200
  sp := 0
  stack := Vector.replicate 16 0
  dt := 0
  st := 0
  mem := []
  pix := Vector.replicate 64 (Vector.replicate 32 false)
  key := Vector.replicate 16 false
  wait := false
  wx := 0
  fault := none
  draws := 0

end Sys2Proof.Machine
end

