-- ==== Sys2Proof/Config.lean ====
section
/-! DEFINITION. The free values: what the spec leaves without a value. Each is an opaque constant, so a theorem
about the model holds whatever it is. -/

namespace Sys2Proof.Config

/-- FREE VALUE (log entry 2). The byte the injected random source delivers at the n-th draw: "any of the 256
values, under no law, independent from step to step" (spec/42_alu.md rule R153, D18). -/
opaque randomByte : Nat → Byte

/-- FREE VALUE (log entry 4). What the rest of the state is after a step that raised the fault `c` in the state
`s`: "The value of every other piece of state … after a faulting step is UNSPECIFIED" (spec/60_exceptions.md
rule R206, U1). -/
opaque afterFault (c : Machine.Fault) (s : Machine.State) : Machine.State

end Sys2Proof.Config
end

