-- ==== Sys2Proof/Syntax.lean ====
section
/-! DEFINITION. The instruction set: one constructor per row of spec/opcode_table.json, in the order of
spec/30_encoding.md rule R97. The operand fields are those of the row's format (rule R94), each at the width
its bits have (rules R91, R93), so an operand out of range cannot be written down. -/

namespace Sys2Proof

/-- The 34 instructions of rule R97, each named after its customary mnemonic; the docstring gives the family
pattern, which is the instruction's normative name (rule R102). -/
inductive Instr where
  /-- 00E0, clear the display. -/
  | cls
  /-- 00EE, return from subroutine. -/
  | ret
  /-- 1nnn, jump. -/
  | jp (nnn : Addr12)
  /-- 2nnn, call subroutine. -/
  | call (nnn : Addr12)
  /-- 3xkk, skip if Vx = kk. -/
  | seImm (x : Nibble) (kk : Byte)
  /-- 4xkk, skip if Vx differs from kk. -/
  | sneImm (x : Nibble) (kk : Byte)
  /-- 5xy0, skip if Vx = Vy. -/
  | seReg (x y : Nibble)
  /-- 6xkk, load immediate. -/
  | ldImm (x : Nibble) (kk : Byte)
  /-- 7xkk, add immediate. -/
  | addImm (x : Nibble) (kk : Byte)
  /-- 8xy0, copy register. -/
  | ldReg (x y : Nibble)
  /-- 8xy1, bitwise OR. -/
  | orReg (x y : Nibble)
  /-- 8xy2, bitwise AND. -/
  | andReg (x y : Nibble)
  /-- 8xy3, bitwise exclusive OR. -/
  | xorReg (x y : Nibble)
  /-- 8xy4, add with carry out. -/
  | addReg (x y : Nibble)
  /-- 8xy5, Vx minus Vy. -/
  | subReg (x y : Nibble)
  /-- 8xy6, shift Vx right by one; y is decoded and not used (rule R98). -/
  | shr (x y : Nibble)
  /-- 8xy7, Vy minus Vx. -/
  | subnReg (x y : Nibble)
  /-- 8xyE, shift Vx left by one; y is decoded and not used (rule R98). -/
  | shl (x y : Nibble)
  /-- 9xy0, skip if Vx differs from Vy. -/
  | sneReg (x y : Nibble)
  /-- Annn, load I. -/
  | ldI (nnn : Addr12)
  /-- Bnnn, jump to nnn + V0. -/
  | jpV0 (nnn : Addr12)
  /-- Cxkk, masked random byte. -/
  | rnd (x : Nibble) (kk : Byte)
  /-- Dxyn, draw an n-row sprite at (Vx, Vy). -/
  | drw (x y n : Nibble)
  /-- Ex9E, skip if key Vx is pressed. -/
  | skp (x : Nibble)
  /-- ExA1, skip if key Vx is not pressed. -/
  | sknp (x : Nibble)
  /-- Fx07, read the delay timer. -/
  | ldVxDt (x : Nibble)
  /-- Fx0A, wait for a key. -/
  | ldVxK (x : Nibble)
  /-- Fx15, set the delay timer. -/
  | ldDtVx (x : Nibble)
  /-- Fx18, set the sound timer. -/
  | ldStVx (x : Nibble)
  /-- Fx1E, add Vx to I. -/
  | addIVx (x : Nibble)
  /-- Fx29, point I at a font glyph. -/
  | ldFVx (x : Nibble)
  /-- Fx33, store the three decimal digits of Vx at I. -/
  | ldBVx (x : Nibble)
  /-- Fx55, store V0 to Vx at I. -/
  | ldMemVx (x : Nibble)
  /-- Fx65, load V0 to Vx from I. -/
  | ldVxMem (x : Nibble)
  deriving DecidableEq, Repr

end Sys2Proof
end

