-- ==== Sys2Proof/WellFormed.lean ====
section
/-! DEFINITION. The checks on what is presented to the machine. An `Instr` has its operand widths in its types
(rule R93), so every term of it is well formed; what can be ill formed is an instruction WORD (it may match no
row of rule R97, rule R99) and a program IMAGE (it may be too long, rule R231). -/

namespace Sys2Proof

/-- One row of the decode table of spec/30_encoding.md rule R97: a word `w` selects it exactly when
`w &&& mask = pattern`. -/
structure OpcodeRow where
  mask : Word
  pattern : Word
  deriving DecidableEq, Repr

/-- Whether the word selects the row (rule R97). -/
def OpcodeRow.selects (r : OpcodeRow) (w : Word) : Bool := w &&& r.mask == r.pattern

/-- Rows 1 to 9 of rule R97: 00E0, 00EE, 1nnn, 2nnn, 3xkk, 4xkk, 5xy0, 6xkk, 7xkk. -/
def opcodeRowsLow : List OpcodeRow :=
  [⟨0xFFFF, 0x00E0⟩, ⟨0xFFFF, 0x00EE⟩, ⟨0xF000, 0x1000⟩, ⟨0xF000, 0x2000⟩, ⟨0xF000, 0x3000⟩,
   ⟨0xF000, 0x4000⟩, ⟨0xF00F, 0x5000⟩, ⟨0xF000, 0x6000⟩, ⟨0xF000, 0x7000⟩]

/-- Rows 10 to 18 of rule R97: 8xy0 to 8xy7 and 8xyE. -/
def opcodeRowsAlu : List OpcodeRow :=
  [⟨0xF00F, 0x8000⟩, ⟨0xF00F, 0x8001⟩, ⟨0xF00F, 0x8002⟩, ⟨0xF00F, 0x8003⟩, ⟨0xF00F, 0x8004⟩,
   ⟨0xF00F, 0x8005⟩, ⟨0xF00F, 0x8006⟩, ⟨0xF00F, 0x8007⟩, ⟨0xF00F, 0x800E⟩]

/-- Rows 19 to 25 of rule R97: 9xy0, Annn, Bnnn, Cxkk, Dxyn, Ex9E, ExA1. -/
def opcodeRowsHigh : List OpcodeRow :=
  [⟨0xF00F, 0x9000⟩, ⟨0xF000, 0xA000⟩, ⟨0xF000, 0xB000⟩, ⟨0xF000, 0xC000⟩, ⟨0xF000, 0xD000⟩,
   ⟨0xF0FF, 0xE09E⟩, ⟨0xF0FF, 0xE0A1⟩]

/-- Rows 26 to 34 of rule R97: the nine Fx forms. -/
def opcodeRowsF : List OpcodeRow :=
  [⟨0xF0FF, 0xF007⟩, ⟨0xF0FF, 0xF00A⟩, ⟨0xF0FF, 0xF015⟩, ⟨0xF0FF, 0xF018⟩, ⟨0xF0FF, 0xF01E⟩,
   ⟨0xF0FF, 0xF029⟩, ⟨0xF0FF, 0xF033⟩, ⟨0xF0FF, 0xF055⟩, ⟨0xF0FF, 0xF065⟩]

/-- The decode table of rule R97, all 34 rows in its order. -/
def opcodeRows : List OpcodeRow := opcodeRowsLow ++ opcodeRowsAlu ++ opcodeRowsHigh ++ opcodeRowsF

/-- A legal instruction word: some row of rule R97 selects it. Every other word is illegal (rule R99). -/
def legalWord (w : Word) : Bool := opcodeRows.any (·.selects w)

/-- The longest program image: 3584 bytes, 4096 less the load address 0x200 (rule R231). -/
def maxProgramLength : Nat := 3584

/-- An image that Reset accepts (rule R231). -/
def programFits (program : List Byte) : Bool := program.length ≤ maxProgramLength

end Sys2Proof
end

