-- ==== Sys2Proof/Decode.lean ====
section
/-! DEFINITION. The decoder and the encoder of the 16-bit instruction word (spec/30_encoding.md). The decoder is
written from the two-level map of rules R95 and R96, the encoder from the formats of rule R94; WellFormed.lean
holds the mask and match table of rule R97, so the three can be checked against each other. -/

namespace Sys2Proof

/-! ## The operand fields (rule R91) -/

/-- `op` = instr[15:12]. -/
def fieldOp (w : Word) : Nibble := w.extractLsb' 12 4

/-- `x` = instr[11:8]. -/
def fieldX (w : Word) : Nibble := w.extractLsb' 8 4

/-- `y` = instr[7:4]. -/
def fieldY (w : Word) : Nibble := w.extractLsb' 4 4

/-- `n` = instr[3:0]. -/
def fieldN (w : Word) : Nibble := w.extractLsb' 0 4

/-- `kk` = instr[7:0]. -/
def fieldKk (w : Word) : Byte := w.extractLsb' 0 8

/-- `nnn` = instr[11:0]. -/
def fieldNnn (w : Word) : Addr12 := w.extractLsb' 0 12

/-! ## Decoding -/

/-- Second level for op = 0x0: only the two whole words 0x00E0 and 0x00EE (rule R96). -/
def decodeOp0 (w : Word) : Option Instr :=
  if w = 0x00E0 then some .cls else if w = 0x00EE then some .ret else none

/-- Second level for op = 0x8, by n (rule R96). -/
def decodeOp8 (x y n : Nibble) : Option Instr :=
  match n.toNat with
  | 0x0 => some (.ldReg x y)
  | 0x1 => some (.orReg x y)
  | 0x2 => some (.andReg x y)
  | 0x3 => some (.xorReg x y)
  | 0x4 => some (.addReg x y)
  | 0x5 => some (.subReg x y)
  | 0x6 => some (.shr x y)
  | 0x7 => some (.subnReg x y)
  | 0xE => some (.shl x y)
  | _ => none

/-- Second level for op = 0xE, by kk (rule R96). -/
def decodeOpE (x : Nibble) (kk : Byte) : Option Instr :=
  if kk = 0x9E then some (.skp x) else if kk = 0xA1 then some (.sknp x) else none

/-- Second level for op = 0xF, by kk (rule R96). -/
def decodeOpF (x : Nibble) (kk : Byte) : Option Instr :=
  if kk = 0x07 then some (.ldVxDt x)
  else if kk = 0x0A then some (.ldVxK x)
  else if kk = 0x15 then some (.ldDtVx x)
  else if kk = 0x18 then some (.ldStVx x)
  else if kk = 0x1E then some (.addIVx x)
  else if kk = 0x29 then some (.ldFVx x)
  else if kk = 0x33 then some (.ldBVx x)
  else if kk = 0x55 then some (.ldMemVx x)
  else if kk = 0x65 then some (.ldVxMem x)
  else none

/-- The instruction a word selects, by op and then by the second level (rules R95, R96); `none` for a word that
selects nothing (rule R99). -/
def decodeWord (w : Word) : Option Instr :=
  match (fieldOp w).toNat with
  | 0x0 => decodeOp0 w
  | 0x1 => some (.jp (fieldNnn w))
  | 0x2 => some (.call (fieldNnn w))
  | 0x3 => some (.seImm (fieldX w) (fieldKk w))
  | 0x4 => some (.sneImm (fieldX w) (fieldKk w))
  | 0x5 => if fieldN w = 0 then some (.seReg (fieldX w) (fieldY w)) else none
  | 0x6 => some (.ldImm (fieldX w) (fieldKk w))
  | 0x7 => some (.addImm (fieldX w) (fieldKk w))
  | 0x8 => decodeOp8 (fieldX w) (fieldY w) (fieldN w)
  | 0x9 => if fieldN w = 0 then some (.sneReg (fieldX w) (fieldY w)) else none
  | 0xA => some (.ldI (fieldNnn w))
  | 0xB => some (.jpV0 (fieldNnn w))
  | 0xC => some (.rnd (fieldX w) (fieldKk w))
  | 0xD => some (.drw (fieldX w) (fieldY w) (fieldN w))
  | 0xE => decodeOpE (fieldX w) (fieldKk w)
  | _ => decodeOpF (fieldX w) (fieldKk w)

/-- Why bytes give no instruction. -/
inductive DecodeReject where
  /-- The word matches no row of rule R97: the unsupported-instruction case of rule R99. -/
  | unsupported (w : Word)
  /-- Fewer than two bytes: no instruction has that length (rule R90). -/
  | truncated
  deriving DecidableEq, Repr

/-- Two bytes make a word big-endian: the first byte is bits 15:8 (rules R63, R65). -/
def wordOfBytes (hi lo : Byte) : Word := (hi ++ lo : BitVec (8 + 8))

/-- Decode the instruction at the front of a byte list and give the rest back; every instruction is two bytes
(rule R90). -/
def decode : List Byte → Except DecodeReject (Instr × List Byte)
  | hi :: lo :: rest =>
    match decodeWord (wordOfBytes hi lo) with
    | some i => .ok (i, rest)
    | none => .error (.unsupported (wordOfBytes hi lo))
  | _ => .error .truncated

/-! ## Encoding (rule R94) -/

/-- Format A: op, nnn. -/
def formatA (op : Nibble) (nnn : Addr12) : Word := (op ++ nnn : BitVec (4 + 12))

/-- Format XK: op, x, kk. -/
def formatXK (op x : Nibble) (kk : Byte) : Word := ((op ++ x : BitVec (4 + 4)) ++ kk : BitVec (4 + 4 + 8))

/-- Formats XY and XYN: op, x, y, and the low nibble (a fixed sub-opcode, or n). -/
def formatXYN (op x y n : Nibble) : Word :=
  ((op ++ x : BitVec (4 + 4)) ++ (y ++ n : BitVec (4 + 4)) : BitVec (4 + 4 + (4 + 4)))

/-- The word of an instruction, from the formats of rule R94 and the patterns of rule R97. Format XS is format
XK with a fixed low byte. -/
def encode : Instr → Word
  | .cls => 0x00E0
  | .ret => 0x00EE
  | .jp nnn => formatA 0x1 nnn
  | .call nnn => formatA 0x2 nnn
  | .seImm x kk => formatXK 0x3 x kk
  | .sneImm x kk => formatXK 0x4 x kk
  | .seReg x y => formatXYN 0x5 x y 0x0
  | .ldImm x kk => formatXK 0x6 x kk
  | .addImm x kk => formatXK 0x7 x kk
  | .ldReg x y => formatXYN 0x8 x y 0x0
  | .orReg x y => formatXYN 0x8 x y 0x1
  | .andReg x y => formatXYN 0x8 x y 0x2
  | .xorReg x y => formatXYN 0x8 x y 0x3
  | .addReg x y => formatXYN 0x8 x y 0x4
  | .subReg x y => formatXYN 0x8 x y 0x5
  | .shr x y => formatXYN 0x8 x y 0x6
  | .subnReg x y => formatXYN 0x8 x y 0x7
  | .shl x y => formatXYN 0x8 x y 0xE
  | .sneReg x y => formatXYN 0x9 x y 0x0
  | .ldI nnn => formatA 0xA nnn
  | .jpV0 nnn => formatA 0xB nnn
  | .rnd x kk => formatXK 0xC x kk
  | .drw x y n => formatXYN 0xD x y n
  | .skp x => formatXK 0xE x 0x9E
  | .sknp x => formatXK 0xE x 0xA1
  | .ldVxDt x => formatXK 0xF x 0x07
  | .ldVxK x => formatXK 0xF x 0x0A
  | .ldDtVx x => formatXK 0xF x 0x15
  | .ldStVx x => formatXK 0xF x 0x18
  | .addIVx x => formatXK 0xF x 0x1E
  | .ldFVx x => formatXK 0xF x 0x29
  | .ldBVx x => formatXK 0xF x 0x33
  | .ldMemVx x => formatXK 0xF x 0x55
  | .ldVxMem x => formatXK 0xF x 0x65

/-- The bytes of a word as they lie in memory, the most significant at the lower address (rule R65). -/
def bytesOfWord (w : Word) : List Byte := [w.extractLsb' 8 8, w.extractLsb' 0 8]

/-- The bytes of an instruction as they lie in memory. -/
def encodeBytes (i : Instr) : List Byte := bytesOfWord (encode i)

/-- A word numbered as spec/opcode_table.json numbers it: its `nbits` low bits are `w`'s, every bit above is 0. -/
def tableWord (nbits w : Nat) : Word := BitVec.ofNat 16 (w % 2 ^ nbits)

/-- The instruction the decoder reads from the bytes of a table word. -/
def decodeTableWord (nbits w : Nat) : Option Instr :=
  match decode (bytesOfWord (tableWord nbits w)) with
  | .ok (i, _) => some i
  | .error _ => none

end Sys2Proof
end

