-- ==== Sys2Proof/Machine/Font.lean ====
section
/-! DEFINITION. The type of the parameter FONT, which Reset takes as an argument (spec/00_scope.md rule R5), and
its conventional default (spec/10_state.md rule R41). PRESUMED, log entry 1: the document gives the font's place and
size and not its bytes; no claim of this package rests on a value below. -/

namespace Sys2Proof.Machine

/-- Glyphs 0 to 7, five rows each. -/
def fontLow : List Byte :=
  [0xF0, 0x90, 0x90, 0x90, 0xF0] ++ [0x20, 0x60, 0x20, 0x20, 0x70] ++
  [0xF0, 0x10, 0xF0, 0x80, 0xF0] ++ [0xF0, 0x10, 0xF0, 0x10, 0xF0] ++
  [0x90, 0x90, 0xF0, 0x10, 0x10] ++ [0xF0, 0x80, 0xF0, 0x10, 0xF0] ++
  [0xF0, 0x80, 0xF0, 0x90, 0xF0] ++ [0xF0, 0x10, 0x20, 0x40, 0x40]

/-- Glyphs 8 to F, five rows each. -/
def fontHigh : List Byte :=
  [0xF0, 0x90, 0xF0, 0x90, 0xF0] ++ [0xF0, 0x90, 0xF0, 0x10, 0xF0] ++
  [0xF0, 0x90, 0xF0, 0x90, 0x90] ++ [0xE0, 0x90, 0xE0, 0x90, 0xE0] ++
  [0xF0, 0x80, 0x80, 0x80, 0xF0] ++ [0xE0, 0x90, 0x90, 0x90, 0xE0] ++
  [0xF0, 0x80, 0xF0, 0x80, 0xF0] ++ [0xF0, 0x80, 0xF0, 0x80, 0x80]

/-- A FONT: 80 bytes, row r of glyph g being `FONT[5·g + r]` (rules R5, R41). -/
abbrev Font := Vector Byte 80

/-- The bytes of the default FONT, glyphs 0 to F (rule R41). -/
def defaultFontBytes : List Byte := fontLow ++ fontHigh

/-- The default FONT, the value of the parameter that `State.reset` stands for (rule R41). -/
def defaultFont : Font := ⟨defaultFontBytes.toArray, rfl⟩

end Sys2Proof.Machine
end

