-- ==== Sys2Proof/Machine/Ops.lean ====
section
/-! DEFINITION. The named operations over memory, registers, the stack and the fault latch. These are the
pseudocode primitives of spec/00_scope.md rule R9 and the only ways a meaning touches the state. -/

namespace Sys2Proof.Machine

/-! ## Memory as storage -/

/-- 4096 bytes, addresses 0x000 to 0xFFF (rules R4, R40). -/
def memSize : Nat := 4096

/-- What an unlisted address reads as: the reset contents with the default FONT and no program, FONT at 0x000 to
0x04F and zero above (rule R42, `90_conflicts.md` C1). Reset with another FONT lists the bytes that differ. -/
def Memory.background (a : Nat) : Byte := defaultFontBytes.getD a 0

/-- The byte at an address. The cells are in rising order, so the search ends at the first larger address. -/
def Memory.read : Memory → Nat → Byte
  | [], a => Memory.background a
  | (k, c) :: rest, a => if k = a then c else if a < k then Memory.background a else Memory.read rest a

/-- Put the cell (a, b) in front of `rest`, unless `b` is what `a` reads as unlisted. -/
def Memory.place (a : Nat) (b : Byte) (rest : Memory) : Memory :=
  if b = Memory.background a then rest else (a, b) :: rest

/-- Store a byte, keeping the canonical form. -/
def Memory.write : Memory → Nat → Byte → Memory
  | [], a, b => Memory.place a b []
  | (k, c) :: rest, a, b =>
    if a < k then Memory.place a b ((k, c) :: rest)
    else if a = k then Memory.place a b rest
    else (k, c) :: Memory.write rest a b

/-- The canonical form from address `lo` up: addresses strictly rising and below 4096, no cell equal to what its
address reads as unlisted. -/
def Memory.wfFrom : Nat → Memory → Bool
  | _, [] => true
  | lo, (k, c) :: rest =>
    decide (lo ≤ k) && decide (k < memSize) && decide (c ≠ Memory.background k) && Memory.wfFrom (k + 1) rest

/-- The canonical form of a memory. -/
def Memory.wf (m : Memory) : Bool := Memory.wfFrom 0 m

/-- The memory in canonical form that a list of cells stands for; cells at addresses that do not exist are
dropped, and the first of two cells at one address counts. -/
def Memory.canon : Memory → Memory
  | [] => []
  | (a, b) :: rest => if a < memSize then Memory.write (Memory.canon rest) a b else Memory.canon rest

/-- Store bytes at ascending addresses, unchecked: the copying of Reset (rule R231). -/
def Memory.load (m : Memory) (base : Nat) : List Byte → Memory
  | [] => m
  | b :: bs => Memory.load (Memory.write m base b) (base + 1) bs

/-! ## Checked access (spec/20_memory.md rules R60 to R66) -/

/-- `MemRead(addr, 1)`, rule R61. -/
def memRead1 (m : Memory) (addr : Nat) : Except Fault Byte :=
  if addr ≥ memSize then .error (.addressingFault addr) else .ok (m.read addr)

/-- `MemWrite(addr, 1, v)`, rule R62. -/
def memWrite1 (m : Memory) (addr : Nat) (b : Byte) : Except Fault Memory :=
  if addr ≥ memSize then .error (.addressingFault addr) else .ok (m.write addr b)

/-- `MemRead(addr, 2)`, rule R63: big-endian, the instruction fetch. -/
def memRead2 (m : Memory) (addr : Nat) : Except Fault Word :=
  match memRead1 m addr with
  | .error c => .error c
  | .ok hi =>
    match memRead1 m (addr + 1) with
    | .error c => .error c
    | .ok lo => .ok (wordOfBytes hi lo)

/-- `MemWrite(addr, 2, v)`, rule R64: big-endian. No instruction calls it (D28). -/
def memWrite2 (m : Memory) (addr : Nat) (w : Word) : Except Fault Memory :=
  match memWrite1 m addr (w.extractLsb' 8 8) with
  | .error c => .error c
  | .ok m' => memWrite1 m' (addr + 1) (w.extractLsb' 0 8)

/-- Read `n` bytes at `base`, `base + 1`, …, in ascending order (rule R68); the first address that does not exist
is the one reported (rule R203). -/
def memReadBytes (m : Memory) (base : Nat) : Nat → Except Fault (List Byte)
  | 0 => .ok []
  | n + 1 =>
    match memRead1 m base with
    | .error c => .error c
    | .ok b =>
      match memReadBytes m (base + 1) n with
      | .error c => .error c
      | .ok bs => .ok (b :: bs)

/-- Write bytes at `base`, `base + 1`, …, in ascending order (rule R68). -/
def memWriteBytes (m : Memory) (base : Nat) : List Byte → Except Fault Memory
  | [] => .ok m
  | b :: bs =>
    match memWrite1 m base b with
    | .error c => .error c
    | .ok m' => memWriteBytes m' (base + 1) bs

/-! ## Registers -/

/-- `V[r]`, rule R21: any of the sixteen, none hard-wired. -/
def State.getV (s : State) (r : Nibble) : Byte := s.v[r.toNat]'r.isLt

/-- `V[r] <- b`. -/
def State.setV (s : State) (r : Nibble) (b : Byte) : State := { s with v := s.v.set r.toNat b r.isLt }

/-- `I <- w`, rule R29. -/
def State.setI (s : State) (w : Word) : State := { s with i := w }

/-- `PC <- w`, rule R25. -/
def State.setPc (s : State) (w : Word) : State := { s with pc := w }

/-- `PC <- (PC + 2) mod 65536`, rule R26: the default advance, and once more by a skip. -/
def State.advancePc (s : State) : State := s.setPc (s.pc + 2)

/-- A skip: advance past the next instruction when the condition holds (spec/41_skip.md). -/
def State.skipIf (s : State) (c : Bool) : State := if c then s.advancePc else s

/-- `DT <- b`, rule R31. -/
def State.setDt (s : State) (b : Byte) : State := { s with dt := b }

/-- `ST <- b`, rule R32. -/
def State.setSt (s : State) (b : Byte) : State := { s with st := b }

/-- MEM as a whole, after the checked writes of an instruction. -/
def State.setMem (s : State) (m : Memory) : State := { s with mem := m }

/-- PIX as a whole, after a clear or a draw. -/
def State.setPix (s : State) (p : Pixels) : State := { s with pix := p }

/-- `KEY[k]`, rule R35. -/
def State.getKey (s : State) (k : Nibble) : Bool := s.key[k.toNat]'k.isLt

/-- `KEY[k] <- b`; the host alone does this (rule R217). -/
def State.setKey (s : State) (k : Nibble) (b : Bool) : State := { s with key := s.key.set k.toNat b k.isLt }

/-- `WAIT <- 1; WX <- x`, rule R183. -/
def State.beginWait (s : State) (x : Nibble) : State := { s with wait := true, wx := x }

/-- `V[WX] <- k; WAIT <- 0`, the delivery of an awaited key (rule R185). -/
def State.deliverKey (s : State) (k : Nibble) : State := { s.setV s.wx (k.setWidth 8) with wait := false }

/-- Consume one draw of the random source (rule R153). -/
def State.drawn (s : State) : State := { s with draws := s.draws + 1 }

/-! ## The stack (rule R30) -/

/-- Push a return address to `STACK[SP]`; a full stack is the overflow fault (rules R122, R202). -/
def State.push (s : State) (w : Word) : Except Fault State :=
  if h : s.sp.val < 16 then
    .ok { s with stack := s.stack.set s.sp.val w h, sp := ⟨s.sp.val + 1, by omega⟩ }
  else .error (.stackFault .overflow)

/-- Pop the top `STACK[SP - 1]`, which keeps its value in the slot; an empty stack is the underflow fault (rules
R120, R202, D21). -/
def State.pop (s : State) : Except Fault (Word × State) :=
  if h : s.sp.val = 0 then .error (.stackFault .underflow)
  else .ok (s.stack[s.sp.val - 1]'(by omega), { s with sp := ⟨s.sp.val - 1, by omega⟩ })

/-! ## Taking a fault (spec/60_exceptions.md rules R200, R206) -/

/-- The numeric code of a cause (rule R200). -/
def Fault.code : Fault → Nat
  | .unsupportedInstruction _ => 1
  | .stackFault _ => 2
  | .addressingFault _ => 3
  | .keyIndexFault _ => 4

/-- Taking the fault `c`: FAULT holds the cause and its info, and every other piece of state is unspecified, so a
free value (rule R206, log entry 4). There is no handler, no vector, no saved register and no return (rule
R207). The memory of the free state is put in canonical form, since MEM is 4096 bytes whatever they hold. -/
def State.takeFault (s : State) (c : Fault) : State :=
  { Config.afterFault c s with mem := (Config.afterFault c s).mem.canon, fault := some c }

/-- `raise c`: the step ends here, with the fault taken (rule R9). -/
def raise (s : State) (c : Fault) : Host.Outcome State Fault Refusal := .next (s.takeFault c)

/-- Go on with the value of a checked operation, or raise its fault: "nothing after it in the pseudocode runs"
(rule R9). -/
def State.attempt {α : Type} (s : State) (r : Except Fault α) (k : α → Host.Outcome State Fault Refusal) :
    Host.Outcome State Fault Refusal :=
  match r with
  | .ok a => k a
  | .error c => raise s c

/-! ## Fetching and selecting -/

/-- `instr = MemRead(PC, 2)`, rule R92 step 1. -/
def State.fetch (s : State) : Except Fault Word := memRead2 s.mem s.pc.toNat

/-- The instruction a fetched word selects, or the unsupported-instruction fault (rule R92 step 2, rules R99,
R201). -/
def selectInstr (w : Word) : Except Fault Instr :=
  match decodeWord w with
  | some i => .ok i
  | none => .error (.unsupportedInstruction w)

/-- The step of rule R92, `run` being what executes an instruction. 0a: a latched fault, nothing changes (rule
R207). 0b: a key wait, nothing changes (the hold of rule R184). 1: fetch. 2: select the instruction. 3: PC past it. 4:
execute it. -/
def State.stepBy (s : State) (run : Instr → State → Host.Outcome State Fault Refusal) :
    Host.Outcome State Fault Refusal :=
  if s.fault.isSome then .next s
  else if s.wait then .next s
  else s.attempt s.fetch fun w => s.attempt (selectInstr w) fun i => run i s.advancePc

/-- An address at which a fetch does not fault: `pc`, or the load address 0x200 when no whole word lies at `pc`
(rule R63). -/
def fetchablePc (pc : Word) : Word := if pc.toNat + 1 < memSize then pc else 0x200

/-- The state with the word `w` where the next step fetches it, and with nothing in the way of that fetch: no
latched fault, no key wait, PC where a word fits. -/
def State.withWordAtPc (s : State) (w : Word) : State :=
  { s with
    mem := s.mem.load (fetchablePc s.pc).toNat (bytesOfWord w)
    pc := fetchablePc s.pc
    wait := false
    fault := none }

end Sys2Proof.Machine
end

