-- ==== Sys2Proof/Machine/Flags.lean ====
section
/-! DEFINITION. The flag computations (spec/42_alu.md rules R151, R152; spec/10_state.md rule R24). The one flag is
the register VF; a flag write stores 0x00 or 0x01 into the whole of it. -/

namespace Sys2Proof.Machine

/-- VF, the register of index 15. -/
def vf : Nibble := 0xF

/-- A flag as the byte that is written: 0x01 or 0x00 (rule R24). -/
def flagByte (b : Bool) : Byte := if b then 1 else 0

/-- The carry of an addition: 1 exactly when the exact sum is above 255 (rule R151). -/
def carryOut (a b : Byte) : Bool := decide (a.toNat + b.toNat > 255)

/-- The flag of a subtraction: 1 exactly when the minuend is strictly greater, evaluated before the subtraction
(rule R152). -/
def strictlyGreater (minuend subtrahend : Byte) : Bool := decide (minuend.toNat > subtrahend.toNat)

/-- The bit shifted out by a right shift: bit 0 before the shift (rule R148). -/
def lowBit (a : Byte) : Bool := a.getLsbD 0

/-- The bit shifted out by a left shift: bit 7 before the shift (rule R150). -/
def highBit (a : Byte) : Bool := a.getLsbD 7

/-- `V[0xF] <- flag`. -/
def State.setFlag (s : State) (b : Bool) : State := s.setV vf (flagByte b)

end Sys2Proof.Machine
end

