-- ==== Sys2Proof/Machine/Operands.lean ====
section
/-! DEFINITION. The operand forms (spec/30_encoding.md rule R93, spec/43_index_memory.md): immediates and their
extension, the one addressing mode I + offset, register runs, digits, key numbers. -/

namespace Sys2Proof.Machine

/-- `zext_16(nnn)`: an address operand as it goes to PC or I (rule R93). -/
def addrOperand (nnn : Addr12) : Word := nnn.setWidth 16

/-- `zext_16(b)`: a register value as it is added to I or to an address (rules R123, R161). -/
def byteOperand (b : Byte) : Word := b.setWidth 16

/-- The byte address of the k-th byte of an access based at I, a natural number that does not wrap (rule R66). -/
def State.dataAddr (s : State) (k : Nat) : Nat := s.i.toNat + k

/-- The values of V0 to Vx in ascending order, x + 1 of them (rule R164). -/
def State.firstRegs (s : State) (x : Nibble) : List Byte :=
  (List.range (x.toNat + 1)).map fun k => s.getV (BitVec.ofNat 4 k)

/-- Write bytes to V[k], V[k + 1], … in ascending order (rule R165). -/
def State.loadRegs (s : State) (k : Nat) : List Byte → State
  | [] => s
  | b :: bs => State.loadRegs (s.setV (BitVec.ofNat 4 k) b) (k + 1) bs

/-- The three decimal digits of a byte, hundreds, tens and ones (rule R163). -/
def bcdDigits (b : Byte) : List Byte :=
  [BitVec.ofNat 8 (b.toNat / 100), BitVec.ofNat 8 (b.toNat / 10 % 10), BitVec.ofNat 8 (b.toNat % 10)]

/-- `5 * zext_16(b)`: the address of a glyph, all eight bits multiplied (rule R162). -/
def glyphAddr (b : Byte) : Word := BitVec.ofNat 16 (5 * b.toNat)

/-- A register value as a key number; above 15 it is the key-index fault (rules R134, R135, R204). -/
def keyIndex (b : Byte) : Except Fault Nibble :=
  if b.toNat > 15 then .error (.keyIndexFault b) else .ok (b.setWidth 4)

end Sys2Proof.Machine
end

