-- ==== Sys2Proof/Machine/Alu.lean ====
section
/-! DEFINITION. Register load and arithmetic: 6xkk, 7xkk, 8xy0 to 8xy7, 8xyE, Cxkk (spec/42_alu.md). Every meaning
reads its source registers from the state it is given and then writes in the order of its rule, so that with
x = 0xF the later write is the one left (spec/00_scope.md rule R10, spec/70_reset_and_hazards.md rule R236). -/

namespace Sys2Proof.Machine

/-- 6xkk (rule R140). -/
def execLdImm (x : Nibble) (kk : Byte) (s : State) : Host.Outcome State Fault Refusal :=
  .next (s.setV x kk)

/-- 7xkk (rule R141): no flag. -/
def execAddImm (x : Nibble) (kk : Byte) (s : State) : Host.Outcome State Fault Refusal :=
  .next (s.setV x (s.getV x + kk))

/-- 8xy0 (rule R142). -/
def execLdReg (x y : Nibble) (s : State) : Host.Outcome State Fault Refusal :=
  .next (s.setV x (s.getV y))

/-- 8xy1 (rule R143): VF is left alone. -/
def execOrReg (x y : Nibble) (s : State) : Host.Outcome State Fault Refusal :=
  .next (s.setV x (s.getV x ||| s.getV y))

/-- 8xy2 (rule R144): VF is left alone. -/
def execAndReg (x y : Nibble) (s : State) : Host.Outcome State Fault Refusal :=
  .next (s.setV x (s.getV x &&& s.getV y))

/-- 8xy3 (rule R145): VF is left alone. -/
def execXorReg (x y : Nibble) (s : State) : Host.Outcome State Fault Refusal :=
  .next (s.setV x (s.getV x ^^^ s.getV y))

/-- 8xy4 (rule R146): the sum, then the carry. -/
def execAddReg (x y : Nibble) (s : State) : Host.Outcome State Fault Refusal :=
  .next ((s.setV x (s.getV x + s.getV y)).setFlag (carryOut (s.getV x) (s.getV y)))

/-- 8xy5 (rule R147): the flag, then Vx - Vy. -/
def execSubReg (x y : Nibble) (s : State) : Host.Outcome State Fault Refusal :=
  .next ((s.setFlag (strictlyGreater (s.getV x) (s.getV y))).setV x (s.getV x - s.getV y))

/-- 8xy6 (rule R148): the bit shifted out, then Vx >> 1; Vy plays no part (rule R98). -/
def execShr (x _y : Nibble) (s : State) : Host.Outcome State Fault Refusal :=
  .next ((s.setFlag (lowBit (s.getV x))).setV x (s.getV x >>> 1))

/-- 8xy7 (rule R149): the flag, then Vy - Vx. -/
def execSubnReg (x y : Nibble) (s : State) : Host.Outcome State Fault Refusal :=
  .next ((s.setFlag (strictlyGreater (s.getV y) (s.getV x))).setV x (s.getV y - s.getV x))

/-- 8xyE (rule R150): the bit shifted out, then Vx << 1; Vy plays no part (rule R98). -/
def execShl (x _y : Nibble) (s : State) : Host.Outcome State Fault Refusal :=
  .next ((s.setFlag (highBit (s.getV x))).setV x (s.getV x <<< 1))

/-- `V[x] <- rnd & kk` for a given byte of the random source (rule R153). -/
def rndWith (byte : Byte) (x : Nibble) (kk : Byte) (s : State) : State := (s.setV x (byte &&& kk)).drawn

/-- Cxkk (rule R153): the byte is the next draw of the random source, a free value (log entry 2). With the byte as
an argument of the step it is `execWith`. -/
def execRnd (x : Nibble) (kk : Byte) (s : State) : Host.Outcome State Fault Refusal :=
  .next (rndWith (Config.randomByte s.draws) x kk s)

end Sys2Proof.Machine
end

