-- ==== Sys2Proof/Machine/Display.lean ====
section
/-! DEFINITION. The display: 00E0, Dxyn and the sprite XOR compositor (spec/44_display.md). -/

namespace Sys2Proof.Machine

/-- `PIX[cx][cy]`. -/
def Pixels.get (p : Pixels) (cx : Fin 64) (cy : Fin 32) : Bool := p[cx.val][cy.val]

/-- `PIX[cx][cy] <- b`. -/
def Pixels.put (p : Pixels) (cx : Fin 64) (cy : Fin 32) (b : Bool) : Pixels :=
  p.set cx.val (p[cx.val].set cy.val b)

/-- The blank display, every pixel 0. -/
def blankPixels : Pixels := Vector.replicate 64 (Vector.replicate 32 false)

/-- The bit of a sprite row at column `col`: column 0 is bit 7, the leftmost pixel (rule R172). -/
def spriteBit (b : Byte) (col : Nat) : Bool := b.getLsbD (7 - col)

/-- `(x0 + col) mod 64`: the screen column of a sprite column, wrapping and not clipping (rule R172). -/
def wrapCol (x0 col : Nat) : Fin 64 := ⟨(x0 + col) % 64, Nat.mod_lt _ (by decide)⟩

/-- `(y0 + row) mod 32`: the screen row of a sprite row (rule R172). -/
def wrapRow (y0 row : Nat) : Fin 32 := ⟨(y0 + row) % 32, Nat.mod_lt _ (by decide)⟩

/-- The body of rule R172's inner loop: one sprite bit onto one pixel, each coordinate wrapping on its own; the
pair is the display and the collision so far. -/
def plot (x0 y0 row : Nat) (b : Byte) (pc : Pixels × Bool) (col : Nat) : Pixels × Bool :=
  let bit := spriteBit b col
  let cx := wrapCol x0 col
  let cy := wrapRow y0 row
  (pc.1.put cx cy (pc.1.get cx cy ^^ bit), pc.2 || (bit && pc.1.get cx cy))

/-- One sprite row: columns 0 to 7. -/
def plotRow (x0 y0 row : Nat) (b : Byte) (pc : Pixels × Bool) : Pixels × Bool :=
  (List.range 8).foldl (plot x0 y0 row b) pc

/-- Sprite rows from number `row` on. -/
def plotRows (x0 y0 : Nat) : Nat → List Byte → Pixels × Bool → Pixels × Bool
  | _, [], pc => pc
  | row, b :: bs, pc => plotRows x0 y0 (row + 1) bs (plotRow x0 y0 row b pc)

/-- `DrawSprite(x0, y0, rows)` (rule R172): the display afterwards and the collision bit. -/
def drawSprite (p : Pixels) (x0 y0 : Nat) (rows : List Byte) : Pixels × Bool := plotRows x0 y0 0 rows (p, false)

/-- 00E0 (rule R170). -/
def execCls (s : State) : Host.Outcome State Fault Refusal := .next (s.setPix blankPixels)

/-- Dxyn (rule R171): the rows are read first, the position registers before VF is written, VF last and always. -/
def execDrw (x y n : Nibble) (s : State) : Host.Outcome State Fault Refusal :=
  s.attempt (memReadBytes s.mem (s.dataAddr 0) n.toNat) fun rows =>
    let drawn := drawSprite s.pix ((s.getV x).toNat % 64) ((s.getV y).toNat % 32) rows
    .next ((s.setPix drawn.1).setFlag drawn.2)

end Sys2Proof.Machine
end

