-- ==== Sys2Proof/Machine/Flow.lean ====
section
/-! DEFINITION. Control transfer: 00EE, 1nnn, 2nnn, Bnnn (spec/40_flow.md). PC is already past the instruction. -/

namespace Sys2Proof.Machine

/-- 00EE (rule R120): pop the return address into PC. -/
def execRet (s : State) : Host.Outcome State Fault Refusal :=
  s.attempt s.pop fun p => .next (p.2.setPc p.1)

/-- 1nnn (rule R121): PC becomes exactly nnn. -/
def execJp (nnn : Addr12) (s : State) : Host.Outcome State Fault Refusal :=
  .next (s.setPc (addrOperand nnn))

/-- 2nnn (rule R122): push the advanced PC, then PC becomes nnn. -/
def execCall (nnn : Addr12) (s : State) : Host.Outcome State Fault Refusal :=
  s.attempt (s.push s.pc) fun t => .next (t.setPc (addrOperand nnn))

/-- Bnnn (rule R123): PC becomes nnn + V0, a 16-bit sum. -/
def execJpV0 (nnn : Addr12) (s : State) : Host.Outcome State Fault Refusal :=
  .next (s.setPc (addrOperand nnn + byteOperand (s.getV 0)))

end Sys2Proof.Machine
end

