-- ==== Sys2Proof/Machine/IndexMemory.lean ====
section
/-! DEFINITION. Index register, loads and stores: Annn, Fx1E, Fx29, Fx33, Fx55, Fx65 (spec/43_index_memory.md). A
load or store leaves I as it was. -/

namespace Sys2Proof.Machine

/-- Annn (rule R160). -/
def execLdI (nnn : Addr12) (s : State) : Host.Outcome State Fault Refusal :=
  .next (s.setI (addrOperand nnn))

/-- Fx1E (rule R161): the sum modulo 65536, no flag. -/
def execAddIVx (x : Nibble) (s : State) : Host.Outcome State Fault Refusal :=
  .next (s.setI (s.i + byteOperand (s.getV x)))

/-- Fx29 (rule R162): Vx is not reduced to a nibble. -/
def execLdFVx (x : Nibble) (s : State) : Host.Outcome State Fault Refusal :=
  .next (s.setI (glyphAddr (s.getV x)))

/-- Fx33 (rule R163): the digits at I, I + 1, I + 2. -/
def execLdBVx (x : Nibble) (s : State) : Host.Outcome State Fault Refusal :=
  s.attempt (memWriteBytes s.mem (s.dataAddr 0) (bcdDigits (s.getV x))) fun m => .next (s.setMem m)

/-- Fx55 (rule R164): V0 to Vx at I, I + 1, …. -/
def execLdMemVx (x : Nibble) (s : State) : Host.Outcome State Fault Refusal :=
  s.attempt (memWriteBytes s.mem (s.dataAddr 0) (s.firstRegs x)) fun m => .next (s.setMem m)

/-- Fx65 (rule R165): V0 to Vx from I, I + 1, …. -/
def execLdVxMem (x : Nibble) (s : State) : Host.Outcome State Fault Refusal :=
  s.attempt (memReadBytes s.mem (s.dataAddr 0) (x.toNat + 1)) fun bs => .next (s.loadRegs 0 bs)

end Sys2Proof.Machine
end

