-- ==== Sys2Proof/Machine/Skip.lean ====
section
/-! DEFINITION. Conditional skips: 3xkk, 4xkk, 5xy0, 9xy0, Ex9E, ExA1 (spec/41_skip.md). -/

namespace Sys2Proof.Machine

/-- 3xkk (rule R130). -/
def execSeImm (x : Nibble) (kk : Byte) (s : State) : Host.Outcome State Fault Refusal :=
  .next (s.skipIf (s.getV x == kk))

/-- 4xkk (rule R131). -/
def execSneImm (x : Nibble) (kk : Byte) (s : State) : Host.Outcome State Fault Refusal :=
  .next (s.skipIf (s.getV x != kk))

/-- 5xy0 (rule R132). -/
def execSeReg (x y : Nibble) (s : State) : Host.Outcome State Fault Refusal :=
  .next (s.skipIf (s.getV x == s.getV y))

/-- 9xy0 (rule R133). -/
def execSneReg (x y : Nibble) (s : State) : Host.Outcome State Fault Refusal :=
  .next (s.skipIf (s.getV x != s.getV y))

/-- Ex9E (rule R134): a value above 15 names no key. -/
def execSkp (x : Nibble) (s : State) : Host.Outcome State Fault Refusal :=
  s.attempt (keyIndex (s.getV x)) fun k => .next (s.skipIf (s.getKey k))

/-- ExA1 (rule R135): a value above 15 names no key. -/
def execSknp (x : Nibble) (s : State) : Host.Outcome State Fault Refusal :=
  s.attempt (keyIndex (s.getV x)) fun k => .next (s.skipIf (!s.getKey k))

end Sys2Proof.Machine
end

