-- ==== Sys2Proof/Machine/TimersKeys.lean ====
section
/-! DEFINITION. Timers and key wait: Fx07, Fx0A, Fx15, Fx18 (spec/45_timers_keys.md). -/

namespace Sys2Proof.Machine

/-- Fx07 (rule R180). -/
def execLdVxDt (x : Nibble) (s : State) : Host.Outcome State Fault Refusal := .next (s.setV x s.dt)

/-- Fx0A (rule R183): the core is parked; Vx is written when the key arrives (`keyWrite`). -/
def execLdVxK (x : Nibble) (s : State) : Host.Outcome State Fault Refusal := .next (s.beginWait x)

/-- Fx15 (rule R181). -/
def execLdDtVx (x : Nibble) (s : State) : Host.Outcome State Fault Refusal := .next (s.setDt (s.getV x))

/-- Fx18 (rule R182). -/
def execLdStVx (x : Nibble) (s : State) : Host.Outcome State Fault Refusal := .next (s.setSt (s.getV x))

end Sys2Proof.Machine
end

