-- ==== Sys2Proof/Machine/Step.lean ====
section
/-! DEFINITION. One step of the core (spec/30_encoding.md rule R92), and the placing of a word where the next step
fetches. -/

namespace Sys2Proof.Machine

/-- One step (rule R92) whose random byte, if Cxkk draws one, is the next of the free stream (log entry 2). The
Step(rnd) of rule R216, with the byte as an argument, is `stepWith`. -/
def step (s : State) : Host.Outcome State Fault Refusal := s.stepBy exec

/-- The state with a word of spec/opcode_table.json where the next step fetches. It stands for the program load
of Reset (log entry 5). -/
def State.withFetchWord (s : State) (nbits w : Nat) : State := s.withWordAtPc (tableWord nbits w)

end Sys2Proof.Machine
end

