-- ==== Sys2Proof/Machine/HostMoves.lean ====
section
/-! DEFINITION. The host's moves (spec/60_exceptions.md rule R214), each atomic and made between two steps (rule
R73), and a run as a schedule of moves (rule R6, U9). -/

namespace Sys2Proof.Machine

/-! ## Reset with a program (spec/70_reset_and_hazards.md rule R231) -/

/-- The load address 0x200 (rule R4). -/
def loadAddress : Nat := 0x200

/-- Reset(PROGRAM) on a core whose parameter FONT is `glyphs` (rules R5, R231): the font is copied to 0x000 to 0x04F
and the program to 0x200 upwards. Refused when the image is longer than 3584 bytes, and then no state exists (D17). -/
def resetWith (glyphs : Font) (program : List Byte) : Option State :=
  if programFits program then
    some { State.reset with mem := (Memory.load [] 0 glyphs.toList).load loadAddress program }
  else none

/-! ## Step(rnd) (rule R216) -/

/-- Executing an instruction in a step whose input byte is `rnd`: only Cxkk reads the byte (rule R153, D18). -/
def execWith (rnd : Byte) (i : Instr) (s : State) : Host.Outcome State Fault Refusal :=
  match i with
  | .rnd x kk => .next (rndWith rnd x kk s)
  | .cls | .ret | .jp _ | .call _ | .seImm _ _ | .sneImm _ _ | .seReg _ _ | .ldImm _ _ | .addImm _ _ | .ldReg _ _
  | .orReg _ _ | .andReg _ _ | .xorReg _ _ | .addReg _ _ | .subReg _ _ | .shr _ _ | .subnReg _ _ | .shl _ _
  | .sneReg _ _ | .ldI _ | .jpV0 _ | .drw _ _ _ | .skp _ | .sknp _ | .ldVxDt _ | .ldVxK _ | .ldDtVx _ | .ldStVx _
  | .addIVx _ | .ldFVx _ | .ldBVx _ | .ldMemVx _ | .ldVxMem _ => exec i s

/-- Step(rnd): the step of rule R92 with the input byte `rnd` the host presents (rule R216, U5). -/
def stepWith (rnd : Byte) (s : State) : Host.Outcome State Fault Refusal := s.stepBy (execWith rnd)

/-! ## Moves between steps -/

/-- KeyWrite(k, b): KEY[k] is written always; a press while the core is parked, and not faulted, also delivers
the key code to V[WX] and ends the wait (rules R217, R185). -/
def State.keyWrite (s : State) (k : Nibble) (b : Bool) : State :=
  if b && s.wait && s.fault.isNone then (s.setKey k b).deliverKey k else s.setKey k b

/-- One count down, stopping at 0 (rule R218, D8). -/
def countDown (b : Byte) : Byte := if b.toNat > 0 then b - 1 else b

/-- TimerTick: one tick acts on both counters (rule R218). -/
def State.timerTick (s : State) : State := (s.setDt (countDown s.dt)).setSt (countDown s.st)

/-- DisplayRead: the pixels (rule R219). -/
def State.displayRead (s : State) : Pixels := s.pix

/-- TimerRead: DT and ST (rule R220). -/
def State.timerRead (s : State) : Byte × Byte := (s.dt, s.st)

/-- StatusRead: WAIT and FAULT (rule R221). -/
def State.statusRead (s : State) : Bool × Option Fault := (s.wait, s.fault)

/-! ## Runs -/

/-- What the host may do once a run has begun (rule R214). -/
inductive Move where
  /-- Step(rnd): one byte with every step. -/
  | step (rnd : Byte)
  | keyWrite (k : Nibble) (b : Bool)
  | timerTick
  | displayRead
  | timerRead
  | statusRead
  deriving DecidableEq, Repr

/-- What the core returns to a move (rule R214). -/
inductive Reply where
  /-- Of a step: FAULT after the step (rule R216). -/
  | fault (f : Option Fault)
  | nothing
  | pixels (p : Pixels)
  | timers (dt st : Byte)
  | status (wait : Bool) (fault : Option Fault)
  deriving DecidableEq, Repr

/-- The state after a move. -/
def applyMove (s : State) : Move → Host.Outcome State Fault Refusal
  | .step rnd => stepWith rnd s
  | .keyWrite k b => .next (s.keyWrite k b)
  | .timerTick => .next s.timerTick
  | .displayRead => .next s
  | .timerRead => .next s
  | .statusRead => .next s

/-- What the core returns, in terms of the state before the move and, for a step, the state after it. -/
def replyTo (s after : State) : Move → Reply
  | .step _ => .fault after.fault
  | .keyWrite _ _ => .nothing
  | .timerTick => .nothing
  | .displayRead => .pixels s.displayRead
  | .timerRead => .timers s.timerRead.1 s.timerRead.2
  | .statusRead => .status s.statusRead.1 s.statusRead.2

/-- The state after a finite schedule of moves (rule R6): any number of moves of any kind in any order (U9). -/
def runMoves (s : State) : List Move → Host.Outcome State Fault Refusal
  | [] => .next s
  | m :: ms =>
    match applyMove s m with
    | .next t => runMoves t ms
    | .fault c => .fault c
    | .refused r => .refused r

/-- An infinite schedule (rule R6): for every n, the state after its first n moves. -/
def runForever (s : State) (schedule : Nat → Move) : Nat → Host.Outcome State Fault Refusal
  | 0 => .next s
  | n + 1 =>
    match runForever s schedule n with
    | .next t => applyMove t (schedule n)
    | .fault c => .fault c
    | .refused r => .refused r

/-- A whole finite run: Reset with a program, then the moves; `none` when Reset refuses the program. -/
def runProgram (glyphs : Font) (program : List Byte) (moves : List Move) : Option (Host.Outcome State Fault Refusal) :=
  (resetWith glyphs program).map fun s => runMoves s moves

/-- A whole infinite run: Reset with a program, then the schedule; `none` when Reset refuses the program. -/
def runProgramForever (glyphs : Font) (program : List Byte) (schedule : Nat → Move) :
    Option (Nat → Host.Outcome State Fault Refusal) :=
  (resetWith glyphs program).map fun s => runForever s schedule

end Sys2Proof.Machine
end

