-- ==== Sys2Proof/Safety.lean ====
section
/-! DEFINITION. The terms claims are stated in: what is left unchanged, when an instruction raises its fault, what
an invariant says, what a safe run and the end of a run are. -/

namespace Sys2Proof.Machine

/-! ## Frames (spec/00_scope.md rule R11) -/

/-- The pieces of state of spec/10_state.md rule R20, and the model's own counter of draws. -/
inductive Part where
  | v | i | pc | sp | stack | dt | st | mem | pix | key | wait | wx | fault | draws
  deriving DecidableEq, Repr

/-- The piece is the same before (`s`) and after (`t`). Memory is compared byte by byte through the model's read
of one byte, the display pixel by pixel, the registers one by one. -/
def Part.Same (s t : State) : Part → Prop
  | .v => ∀ r, t.getV r = s.getV r
  | .i => t.i = s.i
  | .pc => t.pc = s.pc
  | .sp => t.sp = s.sp
  | .stack => t.stack = s.stack
  | .dt => t.dt = s.dt
  | .st => t.st = s.st
  | .mem => ∀ a, t.mem.read a = s.mem.read a
  | .pix => ∀ cx cy, t.pix.get cx cy = s.pix.get cx cy
  | .key => ∀ k, t.getKey k = s.getKey k
  | .wait => t.wait = s.wait
  | .wx => t.wx = s.wx
  | .fault => t.fault = s.fault
  | .draws => t.draws = s.draws

/-- From `s` to `t` no piece of state outside `ps` changes. -/
def OnlyChanges (ps : List Part) (s t : State) : Prop := ∀ p : Part, p ∉ ps → p.Same s t

/-! ## When an instruction raises its one fault (spec/60_exceptions.md rules R200, R208) -/

/-- The lowest byte address at or above 4096 of an access that starts at `base` and does not lie wholly below
(rule R203). -/
def lowestOffending (base : Nat) : Nat := max base 4096

/-- The fault of an access of `n` bytes at I (rule R203): none when no byte is accessed or all lie below 4096. -/
def accessFault (s : State) (n : Nat) : Option Fault :=
  if n = 0 ∨ s.i.toNat + n ≤ 4096 then none else some (.addressingFault (lowestOffending s.i.toNat))

/-- The fault of using a register as a key number (rule R204). -/
def keyFault (s : State) (x : Nibble) : Option Fault :=
  if (s.getV x).toNat ≤ 15 then none else some (.keyIndexFault (s.getV x))

/-- The fault the instruction raises in the state, if any: the "raised by" column of rule R200, the stack for
00EE and 2nnn, the key number for Ex9E and ExA1, the addresses for Dxyn, Fx33, Fx55 and Fx65, and nothing for the
others (rule R205). -/
def raisedFault (s : State) : Instr → Option Fault
  | .ret => if s.sp.val = 0 then some (.stackFault .underflow) else none
  | .call _ => if s.sp.val = 16 then some (.stackFault .overflow) else none
  | .skp x => keyFault s x
  | .sknp x => keyFault s x
  | .drw _ _ n => accessFault s n.toNat
  | .ldBVx _ => accessFault s 3
  | .ldMemVx x => accessFault s (x.toNat + 1)
  | .ldVxMem x => accessFault s (x.toNat + 1)
  | .cls | .jp _ | .seImm _ _ | .sneImm _ _ | .seReg _ _ | .ldImm _ _ | .addImm _ _ | .ldReg _ _
  | .orReg _ _ | .andReg _ _ | .xorReg _ _ | .addReg _ _ | .subReg _ _ | .shr _ _ | .subnReg _ _ | .shl _ _
  | .sneReg _ _ | .ldI _ | .jpV0 _ | .rnd _ _ | .ldVxDt _ | .ldVxK _ | .ldDtVx _ | .ldStVx _ | .addIVx _
  | .ldFVx _ => none

/-! ## Which registers an instruction reads and writes (spec/10_state.md rule R23) -/

/-- The "writes" column of rule R23, for the step. -/
def writesReg (r : Nibble) : Instr → Bool
  | .ldImm x _ | .addImm x _ | .ldReg x _ | .orReg x _ | .andReg x _ | .xorReg x _ | .rnd x _ | .ldVxDt x => r == x
  | .addReg x _ | .subReg x _ | .subnReg x _ | .shr x _ | .shl x _ => r == x || r == vf
  | .drw _ _ _ => r == vf
  | .ldVxMem x => decide (r.toNat ≤ x.toNat)
  | .cls | .ret | .jp _ | .call _ | .ldI _ | .seImm _ _ | .sneImm _ _ | .seReg _ _ | .sneReg _ _ | .jpV0 _
  | .skp _ | .sknp _ | .ldVxK _ | .ldDtVx _ | .ldStVx _ | .addIVx _ | .ldFVx _ | .ldBVx _ | .ldMemVx _ => false

/-- The "reads" column of rule R23. -/
def readsReg (r : Nibble) : Instr → Bool
  | .seImm x _ | .sneImm x _ | .addImm x _ | .shr x _ | .shl x _ | .skp x | .sknp x | .ldDtVx x | .ldStVx x
  | .addIVx x | .ldFVx x | .ldBVx x => r == x
  | .seReg x y | .sneReg x y | .orReg x y | .andReg x y | .xorReg x y | .addReg x y | .subReg x y | .subnReg x y
  | .drw x y _ => r == x || r == y
  | .ldReg _ y => r == y
  | .jpV0 _ => r == 0
  | .ldMemVx x => decide (r.toNat ≤ x.toNat)
  | .cls | .ret | .jp _ | .call _ | .ldI _ | .ldImm _ _ | .rnd _ _ | .ldVxDt _ | .ldVxK _ | .ldVxMem _ => false

/-! ## The sprite as a set of pixels (spec/44_display.md rules R172, R173) -/

/-- The bit that a sprite of `n` rows at address `base`, drawn at column `x0` and row `y0`, has at the pixel
(cx, cy): 0 where the sprite does not reach. Both distances are taken round the edge of the screen. -/
def spritePixel (m : Memory) (base n x0 y0 : Nat) (cx : Fin 64) (cy : Fin 32) : Bool :=
  let col := (cx.val + 64 - x0 % 64) % 64
  let row := (cy.val + 32 - y0 % 32) % 32
  decide (col < 8) && decide (row < n) && (m.read (base + row)).getLsbD (7 - col)

/-! ## What a store leaves at an address (spec/43_index_memory.md rules R163, R164) -/

/-- The byte at `a` once V0 to Vx are stored at I, I + 1, … (rule R164). -/
def regsStoredByte (s : State) (x : Nibble) (a : Nat) : Byte :=
  if s.i.toNat ≤ a ∧ a ≤ s.i.toNat + x.toNat then s.getV (BitVec.ofNat 4 (a - s.i.toNat)) else s.mem.read a

/-- The byte at `a` once the digits of Vx are stored at I, I + 1, I + 2 (rule R163). -/
def digitsStoredByte (s : State) (x : Nibble) (a : Nat) : Byte :=
  if a = s.i.toNat then BitVec.ofNat 8 ((s.getV x).toNat / 100)
  else if a = s.i.toNat + 1 then BitVec.ofNat 8 ((s.getV x).toNat / 10 % 10)
  else if a = s.i.toNat + 2 then BitVec.ofNat 8 ((s.getV x).toNat % 10)
  else s.mem.read a

/-! ## Invariants -/

/-- No fault is latched: the only states of which anything but FAULT may be claimed (rule R206). -/
def State.Running (s : State) : Prop := s.fault = none

/-- PC and the live return addresses stay where spec/10_state.md rules R26 and R30 say they do. Nothing is said of
a faulted state. -/
def State.ControlInRange (s : State) : Prop :=
  s.fault = none → s.pc.toNat ≤ 0x10FE ∧ ∀ j : Fin 16, j.val < s.sp.val → s.stack[j.val].toNat ≤ 0x1000

/-! ## Safe runs and the end of a run -/

/-- The run from `s` by these moves ends in a state without a fault. FAULT is never cleared (rule R207), so no
step of it raised one. -/
def SafeRun (s : State) (ms : List Move) : Prop := ∃ t, runMoves s ms = .next t ∧ t.fault = none

/-- The customary END_OF_RUN of spec/70_reset_and_hazards.md rule R234: PC holds the address of a 1nnn that jumps
to that same address. PRESUMED, log entry 6. -/
def jumpsToItself (s : State) : Bool :=
  match s.fetch with
  | .error _ => false
  | .ok w =>
    match decodeWord w with
    | some (.jp nnn) => addrOperand nnn == s.pc
    | _ => false

/-- The parameter END_OF_RUN (spec/00_scope.md rule R5) is an argument: a run has ended when a fault is latched or
the predicate holds (rule R234). -/
def runEnded (endOfRun : State → Bool) (s : State) : Bool := s.fault.isSome || endOfRun s

end Sys2Proof.Machine
end

