-- ==== Sys2Proof/Certificates/Slice0/Obligations.lean ====
section
/-! DEFINITION. The statements for the provers. Each docstring names the rule or the passage of the spec it
formalises. Exec-level statements are about the state `exec` is given, in which PC is already past the
instruction (spec/30_encoding.md rule R92 step 3). A raised fault is a NEXT state with FAULT set, of which nothing
else is claimed (spec/60_exceptions.md rule R206, log entries 3 and 4). -/

open Sys2Proof Sys2Proof.Machine

/-! ## Control transfer (spec/40_flow.md) -/

/-- 00EE pops the top of the stack into PC, or raises underflow. Nothing is said of the freed slot, which no claim
may read (spec/93_implementation_defined.md U12). -/
def Obligations.RetPopsReturnAddress : Prop :=
  ∀ s : State,
    (0 < s.sp.val → ∃ t, exec .ret s = .next t ∧ s.stack[s.sp.val - 1]? = some t.pc ∧ t.sp.val = s.sp.val - 1 ∧
      (∀ j : Fin 16, j.val < t.sp.val → t.stack[j.val] = s.stack[j.val]) ∧ OnlyChanges [.pc, .sp, .stack] s t) ∧
    (s.sp.val = 0 → ∃ t, exec .ret s = .next t ∧ t.fault = some (.stackFault .underflow))

/-- Rule R121: PC becomes exactly nnn, and nothing else changes. -/
def Obligations.JumpSetsPcToTarget : Prop :=
  ∀ (s : State) (nnn : Addr12), ∃ t, exec (.jp nnn) s = .next t ∧ t.pc.toNat = nnn.toNat ∧ OnlyChanges [.pc] s t

/-- Rule R122: 2nnn pushes the advanced PC and jumps, or raises overflow when sixteen addresses are held. -/
def Obligations.CallPushesAdvancedPc : Prop :=
  ∀ (s : State) (nnn : Addr12),
    (s.sp.val < 16 → ∃ t, exec (.call nnn) s = .next t ∧ t.pc.toNat = nnn.toNat ∧ t.sp.val = s.sp.val + 1 ∧
      t.stack[s.sp.val]? = some s.pc ∧ (∀ j : Fin 16, j.val < s.sp.val → t.stack[j.val] = s.stack[j.val]) ∧
      OnlyChanges [.pc, .sp, .stack] s t) ∧
    (s.sp.val = 16 → ∃ t, exec (.call nnn) s = .next t ∧ t.fault = some (.stackFault .overflow))

/-- A return right after a call, from whatever PC the subroutine has reached, comes back to the instruction after
the call with the stack at its old depth (spec/95_test_vectors.md S5). -/
def Obligations.ReturnUndoesCall : Prop :=
  ∀ (s : State) (nnn : Addr12) (w : Word) (t : State), s.sp.val < 16 → exec (.call nnn) s = .next t →
    ∃ u, exec .ret (t.setPc w) = .next u ∧ u.pc = s.pc ∧ u.sp = s.sp ∧
      (∀ j : Fin 16, j.val < s.sp.val → u.stack[j.val] = s.stack[j.val]) ∧ OnlyChanges [.pc, .stack] s u

/-- Bnnn: PC becomes the 16-bit sum nnn + V0, not reduced to 12 bits; that is the spec's own decision D27. -/
def Obligations.OffsetJumpAddsV0 : Prop :=
  ∀ (s : State) (nnn : Addr12), ∃ t, exec (.jpV0 nnn) s = .next t ∧
    t.pc.toNat = nnn.toNat + (s.getV 0).toNat ∧ OnlyChanges [.pc] s t

/-! ## Skips (spec/41_skip.md) -/

/-- Rules R130 to R133: the four skips on register values add 2 to PC exactly when their condition holds. -/
def Obligations.RegisterSkipsAddTwoOnCondition : Prop :=
  ∀ (s : State) (x y : Nibble) (kk : Byte),
    (∃ t, exec (.seImm x kk) s = .next t ∧ t.pc = (if s.getV x = kk then s.pc + 2 else s.pc) ∧
      OnlyChanges [.pc] s t) ∧
    (∃ t, exec (.sneImm x kk) s = .next t ∧ t.pc = (if s.getV x = kk then s.pc else s.pc + 2) ∧
      OnlyChanges [.pc] s t) ∧
    (∃ t, exec (.seReg x y) s = .next t ∧ t.pc = (if s.getV x = s.getV y then s.pc + 2 else s.pc) ∧
      OnlyChanges [.pc] s t) ∧
    (∃ t, exec (.sneReg x y) s = .next t ∧ t.pc = (if s.getV x = s.getV y then s.pc else s.pc + 2) ∧
      OnlyChanges [.pc] s t)

/-- Ex9E and ExA1 test the key whose number is Vx; a value above 15 raises the key-index fault, which is the
spec's own decision D7. -/
def Obligations.KeySkipsTestKeyOrFault : Prop :=
  ∀ (s : State) (x k : Nibble),
    ((s.getV x).toNat = k.toNat →
      (∃ t, exec (.skp x) s = .next t ∧ t.pc = (if s.getKey k then s.pc + 2 else s.pc) ∧ OnlyChanges [.pc] s t) ∧
      (∃ t, exec (.sknp x) s = .next t ∧ t.pc = (if s.getKey k then s.pc else s.pc + 2) ∧
        OnlyChanges [.pc] s t)) ∧
    (15 < (s.getV x).toNat →
      (∃ t, exec (.skp x) s = .next t ∧ t.fault = some (.keyIndexFault (s.getV x))) ∧
      (∃ t, exec (.sknp x) s = .next t ∧ t.fault = some (.keyIndexFault (s.getV x))))

/-! ## Register load and arithmetic (spec/42_alu.md) -/

/-- Rules R140 and R142: load immediate and copy write Vx, VF included, and nothing else. -/
def Obligations.LoadsWriteOnlyVx : Prop :=
  ∀ (s : State) (x y : Nibble) (kk : Byte),
    (∃ t, exec (.ldImm x kk) s = .next t ∧ t.getV x = kk ∧ (∀ r, r ≠ x → t.getV r = s.getV r) ∧
      OnlyChanges [.v] s t) ∧
    (∃ t, exec (.ldReg x y) s = .next t ∧ t.getV x = s.getV y ∧ (∀ r, r ≠ x → t.getV r = s.getV r) ∧
      OnlyChanges [.v] s t)

/-- Rule R141: 7xkk adds modulo 256 and writes no flag. -/
def Obligations.AddImmediateLeavesFlag : Prop :=
  ∀ (s : State) (x : Nibble) (kk : Byte), ∃ t, exec (.addImm x kk) s = .next t ∧
    (t.getV x).toNat = ((s.getV x).toNat + kk.toNat) % 256 ∧ (∀ r, r ≠ x → t.getV r = s.getV r) ∧
    OnlyChanges [.v] s t

/-- Rules R143, R144 and R145: OR, AND and XOR bit by bit; VF is not written unless it is Vx. -/
def Obligations.BitwiseOpsLeaveFlag : Prop :=
  ∀ (s : State) (x y : Nibble),
    (∃ t, exec (.orReg x y) s = .next t ∧
      (∀ j, (t.getV x).getLsbD j = ((s.getV x).getLsbD j || (s.getV y).getLsbD j)) ∧
      (∀ r, r ≠ x → t.getV r = s.getV r) ∧ OnlyChanges [.v] s t) ∧
    (∃ t, exec (.andReg x y) s = .next t ∧
      (∀ j, (t.getV x).getLsbD j = ((s.getV x).getLsbD j && (s.getV y).getLsbD j)) ∧
      (∀ r, r ≠ x → t.getV r = s.getV r) ∧ OnlyChanges [.v] s t) ∧
    (∃ t, exec (.xorReg x y) s = .next t ∧
      (∀ j, (t.getV x).getLsbD j = ((s.getV x).getLsbD j ^^ (s.getV y).getLsbD j)) ∧
      (∀ r, r ≠ x → t.getV r = s.getV r) ∧ OnlyChanges [.v] s t)

/-- Rule R146: the sum modulo 256, then VF is 1 exactly when the exact sum is above 255; with x = 0xF the carry is
what VF holds. -/
def Obligations.AddSetsCarry : Prop :=
  ∀ (s : State) (x y : Nibble), ∃ t, exec (.addReg x y) s = .next t ∧
    t.getV vf = (if (s.getV x).toNat + (s.getV y).toNat > 255 then 1 else 0) ∧
    (x ≠ vf → (t.getV x).toNat = ((s.getV x).toNat + (s.getV y).toNat) % 256) ∧
    (∀ r, r ≠ x → r ≠ vf → t.getV r = s.getV r) ∧ OnlyChanges [.v] s t

/-- 8xy5 and 8xy7: the difference modulo 256 of the old operands; VF is 1 exactly when the minuend is strictly
greater, but with x = 0xF the difference is what VF holds. What happens when x or y is 0xF is the spec's own
decision D4. -/
def Obligations.SubtractionsSetStrictFlag : Prop :=
  ∀ (s : State) (x y : Nibble),
    (∃ t, exec (.subReg x y) s = .next t ∧
      (t.getV x).toNat = ((s.getV x).toNat + 256 - (s.getV y).toNat) % 256 ∧
      (x ≠ vf → t.getV vf = if (s.getV x).toNat > (s.getV y).toNat then 1 else 0) ∧
      (∀ r, r ≠ x → r ≠ vf → t.getV r = s.getV r) ∧ OnlyChanges [.v] s t) ∧
    (∃ t, exec (.subnReg x y) s = .next t ∧
      (t.getV x).toNat = ((s.getV y).toNat + 256 - (s.getV x).toNat) % 256 ∧
      (x ≠ vf → t.getV vf = if (s.getV y).toNat > (s.getV x).toNat then 1 else 0) ∧
      (∀ r, r ≠ x → r ≠ vf → t.getV r = s.getV r) ∧ OnlyChanges [.v] s t)

/-- 8xy6 and 8xyE shift Vx in place by one bit, VF takes the bit shifted out; with x = 0xF the result is what VF
holds, which is the spec's own decision D4. -/
def Obligations.ShiftsMoveOneBit : Prop :=
  ∀ (s : State) (x y : Nibble),
    (∃ t, exec (.shr x y) s = .next t ∧ (t.getV x).toNat = (s.getV x).toNat / 2 ∧
      (x ≠ vf → (t.getV vf).toNat = (s.getV x).toNat % 2) ∧
      (∀ r, r ≠ x → r ≠ vf → t.getV r = s.getV r) ∧ OnlyChanges [.v] s t) ∧
    (∃ t, exec (.shl x y) s = .next t ∧ (t.getV x).toNat = (s.getV x).toNat * 2 % 256 ∧
      (x ≠ vf → (t.getV vf).toNat = (s.getV x).toNat / 128) ∧
      (∀ r, r ≠ x → r ≠ vf → t.getV r = s.getV r) ∧ OnlyChanges [.v] s t)

/-- In 8xy6 and 8xyE every y has the same effect, and every y selects the same instruction
(spec/30_encoding.md, fields that are decoded but not used). -/
def Obligations.ShiftsIgnoreFieldY : Prop :=
  ∀ (s : State) (x y y' : Nibble),
    exec (.shr x y) s = exec (.shr x y') s ∧ exec (.shl x y) s = exec (.shl x y') s ∧
    decodeWord (formatXYN 0x8 x y 0x6) = some (.shr x y) ∧ decodeWord (formatXYN 0x8 x y 0xE) = some (.shl x y)

/-- Cxkk: Vx is the byte of the random source under the mask kk. In Step(rnd) that is the byte the step is given,
whatever it is; in `exec` it is the next byte of the free stream of log entry 2, and the stream moves on by one, so
that no two draws are the same draw. That the byte is an input of the step is the spec's own decision D18. -/
def Obligations.RandomByteIsMasked : Prop :=
  ∀ (s : State) (x : Nibble) (kk : Byte),
    (∀ byte : Byte, ∃ t, execWith byte (.rnd x kk) s = .next t ∧ t.getV x = byte &&& kk ∧ t.draws = s.draws + 1 ∧
      (∀ j, kk.getLsbD j = false → (t.getV x).getLsbD j = false) ∧
      (∀ r, r ≠ x → t.getV r = s.getV r) ∧ OnlyChanges [.v, .draws] s t) ∧
    (∃ t, exec (.rnd x kk) s = .next t ∧ t.getV x = Config.randomByte s.draws &&& kk ∧ t.draws = s.draws + 1 ∧
      (∀ j, kk.getLsbD j = false → (t.getV x).getLsbD j = false) ∧
      (∀ r, r ≠ x → t.getV r = s.getV r) ∧ OnlyChanges [.v, .draws] s t)

/-! ## Index register, loads and stores (spec/43_index_memory.md) -/

/-- Rules R160 and R162: Annn loads nnn, Fx29 loads five times all eight bits of Vx, into I alone. -/
def Obligations.IndexLoadsSetI : Prop :=
  ∀ (s : State) (nnn : Addr12) (x : Nibble),
    (∃ t, exec (.ldI nnn) s = .next t ∧ t.i.toNat = nnn.toNat ∧ OnlyChanges [.i] s t) ∧
    (∃ t, exec (.ldFVx x) s = .next t ∧ t.i.toNat = 5 * (s.getV x).toNat ∧ OnlyChanges [.i] s t)

/-- Fx1E: the sum modulo 65536, VF untouched, no fault; the reduction at 16 bits is the spec's own decision
D13. -/
def Obligations.AddToIndexKeepsSixteenBits : Prop :=
  ∀ (s : State) (x : Nibble), ∃ t, exec (.addIVx x) s = .next t ∧
    t.i.toNat = (s.i.toNat + (s.getV x).toNat) % 65536 ∧ OnlyChanges [.i] s t

/-- Rule R163: the three decimal digits at I, I + 1, I + 2 and no other byte, or the addressing fault of the
lowest address past memory. -/
def Obligations.DigitsStoredAtIndex : Prop :=
  ∀ (s : State) (x : Nibble), s.mem.wf = true →
    (s.dataAddr 2 < 4096 → ∃ t, exec (.ldBVx x) s = .next t ∧
      (t.mem.read (s.dataAddr 0)).toNat = (s.getV x).toNat / 100 ∧
      (t.mem.read (s.dataAddr 1)).toNat = (s.getV x).toNat / 10 % 10 ∧
      (t.mem.read (s.dataAddr 2)).toNat = (s.getV x).toNat % 10 ∧
      (∀ a, (a < s.dataAddr 0 ∨ s.dataAddr 2 < a) → t.mem.read a = s.mem.read a) ∧ OnlyChanges [.mem] s t) ∧
    (4096 ≤ s.dataAddr 2 → ∃ t, exec (.ldBVx x) s = .next t ∧
      t.fault = some (.addressingFault (lowestOffending (s.dataAddr 0))))

/-- Rule R164: V0 to Vx at I, I + 1, … and no other byte, I and every register unchanged, or the addressing
fault. -/
def Obligations.RegistersStoredAtIndex : Prop :=
  ∀ (s : State) (x : Nibble), s.mem.wf = true →
    (s.dataAddr x.toNat < 4096 → ∃ t, exec (.ldMemVx x) s = .next t ∧
      (∀ r : Nibble, r.toNat ≤ x.toNat → t.mem.read (s.dataAddr r.toNat) = s.getV r) ∧
      (∀ a, (a < s.dataAddr 0 ∨ s.dataAddr x.toNat < a) → t.mem.read a = s.mem.read a) ∧
      OnlyChanges [.mem] s t) ∧
    (4096 ≤ s.dataAddr x.toNat → ∃ t, exec (.ldMemVx x) s = .next t ∧
      t.fault = some (.addressingFault (lowestOffending (s.dataAddr 0))))

/-- Rule R165: V0 to Vx from I, I + 1, …, the registers above Vx, I and memory unchanged, or the addressing
fault. -/
def Obligations.RegistersLoadedFromIndex : Prop :=
  ∀ (s : State) (x : Nibble),
    (s.dataAddr x.toNat < 4096 → ∃ t, exec (.ldVxMem x) s = .next t ∧
      (∀ r : Nibble, r.toNat ≤ x.toNat → t.getV r = s.mem.read (s.dataAddr r.toNat)) ∧
      (∀ r : Nibble, x.toNat < r.toNat → t.getV r = s.getV r) ∧ OnlyChanges [.v] s t) ∧
    (4096 ≤ s.dataAddr x.toNat → ∃ t, exec (.ldVxMem x) s = .next t ∧
      t.fault = some (.addressingFault (lowestOffending (s.dataAddr 0))))

/-- Storing the registers and loading them back from the same I gives the state back, up to the memory stored
to. -/
def Obligations.LoadUndoesStore : Prop :=
  ∀ (s : State) (x : Nibble) (t : State), s.mem.wf = true → s.dataAddr x.toNat < 4096 →
    exec (.ldMemVx x) s = .next t → ∃ u, exec (.ldVxMem x) t = .next u ∧ OnlyChanges [.mem] s u

/-- A store is seen by the next fetch, whichever of the two bytes at PC it reaches and from whichever side: after
Fx55 and after Fx33 the word fetched is the stored byte where the store reached PC or PC + 1, and the old byte where
it did not (spec/20_memory.md, instruction-fetch coherence). -/
def Obligations.StoreSeenByNextFetch : Prop :=
  ∀ (s : State) (x : Nibble), s.mem.wf = true → s.pc.toNat + 1 < 4096 →
    (s.dataAddr x.toNat < 4096 → ∃ t, exec (.ldMemVx x) s = .next t ∧
      t.fetch = .ok (wordOfBytes (regsStoredByte s x s.pc.toNat) (regsStoredByte s x (s.pc.toNat + 1)))) ∧
    (s.dataAddr 2 < 4096 → ∃ t, exec (.ldBVx x) s = .next t ∧
      t.fetch = .ok (wordOfBytes (digitsStoredByte s x s.pc.toNat) (digitsStoredByte s x (s.pc.toNat + 1))))

/-! ## Display (spec/44_display.md) -/

/-- Rule R170: every pixel becomes 0 and nothing else changes. -/
def Obligations.ClearBlanksEveryPixel : Prop :=
  ∀ s : State, ∃ t, exec .cls s = .next t ∧ (∀ cx cy, t.pix.get cx cy = false) ∧ OnlyChanges [.pix] s t

/-- Rules R171 and R172: each pixel is XORed with the sprite's bit there, the sprite wrapping at both edges; VF
is 1 exactly when a 1 bit met a lit pixel; the position registers are the old ones; or the addressing fault. -/
def Obligations.DrawXorsSpriteAndReportsCollision : Prop :=
  ∀ (s : State) (x y n : Nibble),
    (n.toNat = 0 ∨ s.i.toNat + n.toNat ≤ 4096 → ∃ t, exec (.drw x y n) s = .next t ∧
      (∀ cx cy, t.pix.get cx cy = (s.pix.get cx cy ^^
        spritePixel s.mem s.i.toNat n.toNat (s.getV x).toNat (s.getV y).toNat cx cy)) ∧
      ((∃ cx cy, s.pix.get cx cy = true ∧
        spritePixel s.mem s.i.toNat n.toNat (s.getV x).toNat (s.getV y).toNat cx cy = true) → t.getV vf = 1) ∧
      ((∀ cx cy, s.pix.get cx cy = true →
        spritePixel s.mem s.i.toNat n.toNat (s.getV x).toNat (s.getV y).toNat cx cy = false) → t.getV vf = 0) ∧
      (∀ r, r ≠ vf → t.getV r = s.getV r) ∧ OnlyChanges [.v, .pix] s t) ∧
    (0 < n.toNat → 4096 < s.i.toNat + n.toNat → ∃ t, exec (.drw x y n) s = .next t ∧
      t.fault = some (.addressingFault (lowestOffending s.i.toNat)))

/-- Dxy0 draws nothing, reads no memory wherever I points, cannot fault, and clears VF (spec/44_display.md, n = 0,
derived there from the loop). -/
def Obligations.DrawOfNoRowsClearsFlag : Prop :=
  ∀ (s : State) (x y : Nibble), ∃ t, exec (.drw x y 0) s = .next t ∧ t.getV vf = 0 ∧
    (∀ r, r ≠ vf → t.getV r = s.getV r) ∧ OnlyChanges [.v] s t

/-- Drawing the same sprite twice at the same place restores the display, and the second draw collides exactly
when the sprite has a 1 bit; the first does not on a blank display (spec/95_test_vectors.md S7, spec/44_display.md
properties of a draw). -/
def Obligations.DrawTwiceRestoresDisplay : Prop :=
  ∀ (s : State) (x y n : Nibble) (t : State), x ≠ vf → y ≠ vf →
    (n.toNat = 0 ∨ s.i.toNat + n.toNat ≤ 4096) → exec (.drw x y n) s = .next t →
    ((∀ cx cy, s.pix.get cx cy = false) → t.getV vf = 0) ∧
    ∃ u, exec (.drw x y n) t = .next u ∧ u.pix = s.pix ∧
      ((∀ cx cy, s.pix.get cx cy = false) →
        (u.getV vf = 1 ↔ ∃ k, k < n.toNat ∧ s.mem.read (s.i.toNat + k) ≠ 0))

/-! ## Timers and key wait (spec/45_timers_keys.md) -/

/-- Rules R180, R181 and R182: the three moves between the register file and the timers. -/
def Obligations.TimerInstructionsMoveBytes : Prop :=
  ∀ (s : State) (x : Nibble),
    (∃ t, exec (.ldVxDt x) s = .next t ∧ t.getV x = s.dt ∧ (∀ r, r ≠ x → t.getV r = s.getV r) ∧
      OnlyChanges [.v] s t) ∧
    (∃ t, exec (.ldDtVx x) s = .next t ∧ t.dt = s.getV x ∧ OnlyChanges [.dt] s t) ∧
    (∃ t, exec (.ldStVx x) s = .next t ∧ t.st = s.getV x ∧ OnlyChanges [.st] s t)

/-- Fx0A parks the core and latches x, writing no register and reading no key; that the block itself waits is the
spec's own decision D5. -/
def Obligations.KeyWaitLatchesRegister : Prop :=
  ∀ (s : State) (x : Nibble), ∃ t, exec (.ldVxK x) s = .next t ∧ t.wait = true ∧ t.wx = x ∧
    OnlyChanges [.wait, .wx] s t

/-- While WAIT = 1 a step changes nothing, whatever its input byte; the spec's own decision D5. -/
def Obligations.HoldChangesNothing : Prop :=
  ∀ s : State, s.wait = true → step s = .next s ∧ ∀ byte : Byte, stepWith byte s = .next s

/-- Without a key press no schedule of moves ends the wait, moves PC or writes a register
(spec/45_timers_keys.md, the key-wait state machine; the spec's own decisions D5, D6). -/
def Obligations.OnlyKeyPressEndsWait : Prop :=
  ∀ (ms : List Move) (s : State), s.wait = true → (∀ k, Move.keyWrite k true ∉ ms) →
    ∃ t, runMoves s ms = .next t ∧ t.wait = true ∧ t.wx = s.wx ∧ t.pc = s.pc ∧ t.fault = s.fault ∧
      ∀ r, t.getV r = s.getV r

/-- A press while the core waits sets the key, delivers its number to V[WX] and ends the wait; the spec's own
decision D6. -/
def Obligations.AwaitedKeyIsDelivered : Prop :=
  ∀ (s : State) (k : Nibble), s.wait = true → s.fault = none →
    (s.keyWrite k true).getKey k = true ∧ (∀ q, q ≠ k → (s.keyWrite k true).getKey q = s.getKey q) ∧
    ((s.keyWrite k true).getV s.wx).toNat = k.toNat ∧
    (∀ r, r ≠ s.wx → (s.keyWrite k true).getV r = s.getV r) ∧
    (s.keyWrite k true).wait = false ∧ OnlyChanges [.key, .v, .wait] s (s.keyWrite k true)

/-- A release, a press while no wait is on, or a press after a fault, writes the key and nothing else; the spec's
own decision D6. -/
def Obligations.OtherKeyWritesOnlySetKey : Prop :=
  ∀ (s : State) (k : Nibble) (b : Bool), (b = false ∨ s.wait = false ∨ s.fault ≠ none) →
    (s.keyWrite k b).getKey k = b ∧ (∀ q, q ≠ k → (s.keyWrite k b).getKey q = s.getKey q) ∧
    OnlyChanges [.key] s (s.keyWrite k b)

/-- Any number of ticks: each timer counts down by one a tick and stops at 0, and nothing else changes; the floor
and the pairing are the spec's own decision D8. -/
def Obligations.TicksCountDownToZero : Prop :=
  ∀ (n : Nat) (s : State), ∃ t, runMoves s (List.replicate n .timerTick) = .next t ∧
    t.dt.toNat = s.dt.toNat - n ∧ t.st.toNat = s.st.toNat - n ∧ OnlyChanges [.dt, .st] s t

/-! ## The step and its faults (spec/30_encoding.md rule R92, spec/60_exceptions.md) -/

/-- When the bytes at PC decode to an instruction, the step is that instruction's meaning in the state whose PC,
and nothing else, is 2 further. A Step(rnd) is the same with the byte handed to the instruction, and the byte makes no
difference unless the instruction is Cxkk; that a step has an input byte is the spec's own decision D18. -/
def Obligations.StepRunsDecodedInstruction : Prop :=
  ∀ (s : State) (i : Instr), s.fault = none → s.wait = false → s.pc.toNat + 1 < 4096 →
    decode [s.mem.read s.pc.toNat, s.mem.read (s.pc.toNat + 1)] = .ok (i, []) →
    step s = exec i s.advancePc ∧ s.advancePc.pc = s.pc + 2 ∧ OnlyChanges [.pc] s s.advancePc ∧
    ∀ byte : Byte, stepWith byte s = execWith byte i s.advancePc ∧
      ((∀ x kk, i ≠ .rnd x kk) → stepWith byte s = step s)

/-- Every step answers a next state, whatever its input byte: there is no state in which the core has no step. -/
def Obligations.StepAlwaysAnswersNext : Prop :=
  ∀ s : State, (∃ t, step s = .next t) ∧ ∀ byte : Byte, ∃ t, stepWith byte s = .next t

/-- A fetch that reaches past memory raises the addressing fault of its lowest address at or above 4096
(spec/60_exceptions.md, addressing fault; spec/20_memory.md, the 16-bit read; D12). -/
def Obligations.FetchBeyondMemoryFaults : Prop :=
  ∀ s : State, s.fault = none → s.wait = false → 4095 ≤ s.pc.toNat →
    ∃ t, step s = .next t ∧ t.fault = some (.addressingFault (lowestOffending s.pc.toNat)) ∧
      ∀ byte : Byte, stepWith byte s = .next t

/-- Rule R201: a fetched word that matches no row of the decode table raises the unsupported-instruction fault
with the word as its info. -/
def Obligations.IllegalWordFaults : Prop :=
  ∀ s : State, s.fault = none → s.wait = false → s.pc.toNat + 1 < 4096 →
    legalWord (wordOfBytes (s.mem.read s.pc.toNat) (s.mem.read (s.pc.toNat + 1))) = false →
    ∃ t, step s = .next t ∧ t.fault = some (.unsupportedInstruction
      (wordOfBytes (s.mem.read s.pc.toNat) (s.mem.read (s.pc.toNat + 1)))) ∧
      ∀ byte : Byte, stepWith byte s = .next t

/-- Every instruction answers a next state, and a fault is latched exactly when the instruction's own check
fails, and then it is that one fault (spec/60_exceptions.md, the table of faults, faults that do not exist,
priority). -/
def Obligations.EachInstructionRaisesOnlyItsOwnFault : Prop :=
  ∀ (i : Instr) (s : State), s.fault = none → ∃ t, exec i s = .next t ∧ t.fault = raisedFault s i

/-- A latched fault is final: whatever the host does afterwards, FAULT keeps its value, and a step changes nothing
at all (spec/60_exceptions.md, after a fault; the spec's own decision D1). -/
def Obligations.FaultIsFinal : Prop :=
  ∀ (ms : List Move) (s : State) (c : Fault), s.fault = some c →
    step s = .next s ∧ (∀ byte : Byte, stepWith byte s = .next s) ∧ ∃ t, runMoves s ms = .next t ∧ t.fault = some c

/-- A jump to its own address is where a program rests: the step leaves the whole state as it is. -/
def Obligations.JumpToSelfLeavesStateUnchanged : Prop :=
  ∀ s : State, s.fault = none → s.wait = false → jumpsToItself s = true →
    step s = .next s ∧ ∀ byte : Byte, stepWith byte s = .next s

/-! ## Whole-machine rules: what no instruction does (spec/10_state.md) -/

/-- Memory is written by Fx33 and Fx55 alone (spec/10_state.md, the state table; spec/20_memory.md, the accesses
of each step). -/
def Obligations.OnlyStoresWriteMemory : Prop :=
  ∀ (i : Instr) (s t : State), exec i s = .next t → t.fault = none → (∀ x, i ≠ .ldBVx x) → (∀ x, i ≠ .ldMemVx x) →
    ∀ a, t.mem.read a = s.mem.read a

/-- No instruction changes a key; the display is changed by 00E0 and Dxyn alone, the delay timer by
Fx15 alone, the sound timer by Fx18 alone, the stack by 2nnn and 00EE alone, WAIT and WX by Fx0A alone, I by Annn,
Fx1E and Fx29 alone (spec/10_state.md, the state table). -/
def Obligations.EachDeviceHasItsOwnWriters : Prop :=
  ∀ (i : Instr) (s t : State), exec i s = .next t → t.fault = none →
    (∀ k, t.getKey k = s.getKey k) ∧
    (i ≠ .cls → (∀ x y n, i ≠ .drw x y n) → t.pix = s.pix) ∧
    ((∀ x, i ≠ .ldDtVx x) → t.dt = s.dt) ∧
    ((∀ x, i ≠ .ldStVx x) → t.st = s.st) ∧
    (i ≠ .ret → (∀ nnn, i ≠ .call nnn) → t.stack = s.stack ∧ t.sp = s.sp) ∧
    ((∀ x, i ≠ .ldVxK x) → t.wait = s.wait ∧ t.wx = s.wx) ∧
    ((∀ nnn, i ≠ .ldI nnn) → (∀ x, i ≠ .addIVx x) → (∀ x, i ≠ .ldFVx x) → t.i = s.i)

/-- The "writes" column of the table of registers in spec/10_state.md: no other register changes, VF included. -/
def Obligations.OnlyListedRegistersAreWritten : Prop :=
  ∀ (i : Instr) (s t : State) (r : Nibble), exec i s = .next t → t.fault = none → writesReg r i = false →
    t.getV r = s.getV r

/-- The "reads" column of the same table: a register an instruction neither reads nor writes has no influence on
anything it does. -/
def Obligations.UnreadRegisterHasNoInfluence : Prop :=
  ∀ (i : Instr) (s t : State) (r : Nibble) (b : Byte), exec i s = .next t → t.fault = none →
    readsReg r i = false → writesReg r i = false → exec i (s.setV r b) = .next (t.setV r b)

/-- The keys are read by Ex9E and ExA1 alone: to every other instruction they make no difference
(spec/90_conflicts.md C11). -/
def Obligations.KeysInfluenceOnlyKeySkips : Prop :=
  ∀ (i : Instr) (s t : State) (k : Nibble) (b : Bool), exec i s = .next t → t.fault = none →
    (∀ x, i ≠ .skp x) → (∀ x, i ≠ .sknp x) → exec i (s.setKey k b) = .next (t.setKey k b)

/-! ## Memory (spec/20_memory.md) -/

/-- Rules R61 and R62: a byte read and a byte write below 4096, and the fault at or above. -/
def Obligations.ByteAccessContract : Prop :=
  ∀ (m : Memory) (addr : Nat) (b : Byte), m.wf = true →
    (addr < 4096 → memRead1 m addr = .ok (m.read addr) ∧
      ∃ m', memWrite1 m addr b = .ok m' ∧ m'.read addr = b ∧ ∀ a, a ≠ addr → m'.read a = m.read a) ∧
    (4096 ≤ addr → memRead1 m addr = .error (.addressingFault addr) ∧
      memWrite1 m addr b = .error (.addressingFault addr))

/-- Rule R63: the 16-bit read is big-endian, and faults at the first address that does not exist. -/
def Obligations.WordReadIsBigEndian : Prop :=
  ∀ (m : Memory) (addr : Nat),
    (addr + 1 < 4096 → ∃ w, memRead2 m addr = .ok w ∧
      w.toNat = (m.read addr).toNat * 256 + (m.read (addr + 1)).toNat) ∧
    (addr = 4095 → memRead2 m addr = .error (.addressingFault 4096)) ∧
    (4096 ≤ addr → memRead2 m addr = .error (.addressingFault addr))

/-- The 16-bit write stores the high byte at the lower address, and a word written is the word read back
(spec/20_memory.md, writeWord and byte order; that it is kept is the spec's own decision D28). -/
def Obligations.WordWriteReadsBack : Prop :=
  ∀ (m : Memory) (addr : Nat) (w : Word), m.wf = true →
    (addr + 1 < 4096 → ∃ m', memWrite2 m addr w = .ok m' ∧ memRead2 m' addr = .ok w ∧
      (m'.read addr).toNat = w.toNat / 256 ∧ (m'.read (addr + 1)).toNat = w.toNat % 256 ∧
      ∀ a, a ≠ addr → a ≠ addr + 1 → m'.read a = m.read a) ∧
    (addr = 4095 → memWrite2 m addr w = .error (.addressingFault 4096)) ∧
    (4096 ≤ addr → memWrite2 m addr w = .error (.addressingFault addr))

/-- Two memories in canonical form that read the same at every address are the same data. The form is the model's own
(log entry 8). -/
def Obligations.CanonicalMemoryIsUnique : Prop :=
  ∀ m m' : Memory, m.wf = true → m'.wf = true → (∀ a, a < 4096 → m.read a = m'.read a) → m = m'

/-! ## Invariants that every step keeps -/

/-- The canonical form of memory, the model's own (log entry 8), holds after every step that starts from it, a
faulting step included. -/
def Obligations.StepKeepsMemoryCanonical : Prop :=
  ∀ s t : State, s.mem.wf = true → step s = .next t → t.mem.wf = true

/-- While no fault is latched PC never passes 0x10FE and no live return address passes 0x1000, so the 16-bit wrap of PC is never reached
(spec/10_state.md, PC arithmetic): every step keeps it, whatever state it starts from. -/
def Obligations.StepKeepsControlInRange : Prop :=
  ∀ s t : State, s.ControlInRange → step s = .next t → t.ControlInRange

/-- Every move of the host, Step(rnd) with any byte among them, keeps both invariants: along every finite schedule
and along every infinite one. The canonical form of memory is the model's own (log entry 8). -/
def Obligations.HostMovesKeepInvariants : Prop :=
  ∀ s : State, s.mem.wf = true → s.ControlInRange →
    (∀ ms : List Move, ∃ t, runMoves s ms = .next t ∧ t.mem.wf = true ∧ t.ControlInRange) ∧
    ∀ (schedule : Nat → Move) (n : Nat),
      ∃ t, runForever s schedule n = .next t ∧ t.mem.wf = true ∧ t.ControlInRange

/-! ## Reset (spec/70_reset_and_hazards.md) -/

/-- Reset refuses an image longer than 3584 bytes, and otherwise leaves the table of reset
values, whatever the parameter FONT is: byte a of it stands at address a. That the oversize image is refused, and the values of I, PIX, KEY, WAIT
and WX, are the spec's own decisions D17 and D3
(spec/10_state.md, reset values; spec/70_reset_and_hazards.md, reset). -/
def Obligations.ResetLeavesTableOfValues : Prop :=
  ∀ (glyphs : Font) (program : List Byte),
    (3584 < program.length → resetWith glyphs program = none) ∧
    (program.length ≤ 3584 → ∃ s, resetWith glyphs program = some s ∧
      (∀ r, s.getV r = 0) ∧ s.pc = 0x200 ∧ s.sp.val = 0 ∧ (∀ j : Fin 16, s.stack[j.val] = 0) ∧ s.dt = 0 ∧ s.st = 0 ∧
      (∀ a : Fin 80, s.mem.read a.val = glyphs[a.val]) ∧
      (∀ a, 80 ≤ a → a < 0x200 → s.mem.read a = 0) ∧
      (∀ j, j < program.length → s.mem.read (0x200 + j) = program.getD j 0) ∧
      (∀ a, 0x200 + program.length ≤ a → a < 4096 → s.mem.read a = 0) ∧
      s.i = 0 ∧ (∀ cx cy, s.pix.get cx cy = false) ∧ (∀ k, s.getKey k = false) ∧ s.wait = false ∧ s.wx = 0 ∧
      s.fault = none)

/-- The state after Reset, with any FONT and any program that fits, meets both invariants. The canonical form of
memory is the model's own (log entry 8). -/
def Obligations.ResetMeetsInvariants : Prop :=
  ∀ (glyphs : Font) (program : List Byte) (s : State), resetWith glyphs program = some s → s.mem.wf = true ∧ s.ControlInRange

/-- The reset state itself meets both invariants. That it is Reset with the default FONT and an empty program is the
model's own choice (log entries 1 and 5), and so is the canonical form of memory (log entry 8). -/
def Obligations.ResetStateMeetsInvariants : Prop :=
  resetWith defaultFont [] = some State.reset ∧ State.reset.mem.wf = true ∧ State.reset.ControlInRange

/-! ## Encoding (spec/30_encoding.md) -/

/-- Every instruction, with every operand at every value, decodes from the word and from the bytes it is encoded
as. -/
def Obligations.DecodeOfEncodeIsIdentity : Prop :=
  ∀ (i : Instr) (rest : List Byte), decodeWord (encode i) = some i ∧ decode (encodeBytes i ++ rest) = .ok (i, rest)

/-- Every legal word has one meaning and no bit of it is lost: encoding what it decodes to gives it back. -/
def Obligations.EncodeOfDecodeIsIdentity : Prop :=
  ∀ (w : Word) (i : Instr), decodeWord w = some i → encode i = w

/-- Rule R97: the decoder, which is written from the two-level map, accepts exactly the words that match a row of the
mask and match table, and no word matches two rows. -/
def Obligations.DecoderAcceptsExactlyTheTable : Prop :=
  (∀ w : Word, (decodeWord w).isSome = legalWord w) ∧
  opcodeRows.length = 34 ∧
  opcodeRows.Pairwise fun r q => ∀ w : Word, ¬ (r.selects w = true ∧ q.selects w = true)

/-- A few words written out from the spec's encodings, one a family. -/
def Obligations.SampleWordsDecode : Prop :=
  decodeWord 0x00EE = some .ret ∧ decodeWord 0x2312 = some (.call 0x312) ∧
  decodeWord 0x3342 = some (.seImm 3 0x42) ∧ decodeWord 0x8126 = some (.shr 1 2) ∧
  decodeWord 0xC30F = some (.rnd 3 0x0F) ∧ decodeWord 0xD125 = some (.drw 1 2 5) ∧
  decodeWord 0xE5A1 = some (.sknp 5) ∧ decodeWord 0xF50A = some (.ldVxK 5) ∧
  decodeWord 0xF265 = some (.ldVxMem 2) ∧ decodeWord 0x5121 = none ∧ decodeWord 0x0123 = none

/-- A word of the opcode table placed where the next step fetches is the instruction the next step runs (log entry
5). -/
def Obligations.PlacedWordIsRunNext : Prop :=
  ∀ (s : State) (w : Nat) (i : Instr), s.mem.wf = true → decodeTableWord 16 w = some i →
    step (s.withFetchWord 16 w) = exec i (s.withFetchWord 16 w).advancePc
end

