-- ==== Sys2Proof/Laws/Memory.lean ====
section
/-! SUPPORT. The laws of memory: read after write, the canonical form is kept by every operation, and what the
checked accesses answer. -/

namespace Sys2Proof.Machine

/-! ## The canonical form -/

/-- The canonical form from a lower start follows from one at a higher start. -/
theorem Memory.wfFrom_mono {m : Memory} {lo hi : Nat} (h : lo ≤ hi) (hm : Memory.wfFrom hi m = true) :
    Memory.wfFrom lo m = true := by
  cases m with
  | nil => rfl
  | cons c rest =>
    obtain ⟨k, b⟩ := c
    simp only [Memory.wfFrom, Bool.and_eq_true, decide_eq_true_eq] at hm ⊢
    exact ⟨⟨⟨by omega, hm.1.1.2⟩, hm.1.2⟩, hm.2⟩

theorem Memory.place_wfFrom {rest : Memory} {lo a : Nat} (b : Byte) (hlo : lo ≤ a) (ha : a < memSize)
    (h : Memory.wfFrom (a + 1) rest = true) : Memory.wfFrom lo (Memory.place a b rest) = true := by
  unfold Memory.place
  split
  · exact Memory.wfFrom_mono (by omega) h
  · simp [Memory.wfFrom, *]

theorem Memory.write_wfFrom {m : Memory} {lo a : Nat} (b : Byte) (hlo : lo ≤ a) (ha : a < memSize)
    (h : Memory.wfFrom lo m = true) : Memory.wfFrom lo (Memory.write m a b) = true := by
  induction m generalizing lo with
  | nil => exact Memory.place_wfFrom b hlo ha rfl
  | cons c rest ih =>
    obtain ⟨k, d⟩ := c
    simp only [Memory.wfFrom, Bool.and_eq_true, decide_eq_true_eq] at h
    obtain ⟨⟨⟨h1, h2⟩, h3⟩, h4⟩ := h
    rw [Memory.write]
    split
    · refine Memory.place_wfFrom b hlo ha ?_
      simp only [Memory.wfFrom, Bool.and_eq_true, decide_eq_true_eq]
      exact ⟨⟨⟨by omega, h2⟩, h3⟩, h4⟩
    · split
      · next e => exact Memory.place_wfFrom b hlo ha (e ▸ h4)
      · simp only [Memory.wfFrom, Bool.and_eq_true, decide_eq_true_eq]
        exact ⟨⟨⟨h1, h2⟩, h3⟩, ih (by omega) h4⟩

/-- A store keeps the canonical form. -/
theorem Memory.write_wf {m : Memory} {a : Nat} (b : Byte) (ha : a < memSize) (h : m.wf = true) :
    (Memory.write m a b).wf = true := Memory.write_wfFrom b (Nat.zero_le a) ha h

/-- Canonicalising gives the canonical form, whatever the cells. -/
theorem Memory.canon_wf (m : Memory) : m.canon.wf = true := by
  induction m with
  | nil => rfl
  | cons c rest ih =>
    rw [Memory.canon]
    split
    · exact Memory.write_wf _ ‹_› ih
    · exact ih

/-- Loading an image that fits keeps the canonical form. -/
theorem Memory.load_wf (bs : List Byte) {m : Memory} {base : Nat} (hb : base + bs.length ≤ memSize)
    (h : m.wf = true) : (m.load base bs).wf = true := by
  induction bs generalizing m base with
  | nil => exact h
  | cons b bs ih =>
    simp only [List.length_cons] at hb
    exact ih (by omega) (Memory.write_wf b (by omega) h)

/-! ## Read after write -/

theorem Memory.read_of_wfFrom {m : Memory} {lo a : Nat} (h : Memory.wfFrom lo m = true) (ha : a < lo) :
    m.read a = Memory.background a := by
  cases m with
  | nil => rfl
  | cons c rest =>
    obtain ⟨k, d⟩ := c
    simp only [Memory.wfFrom, Bool.and_eq_true, decide_eq_true_eq] at h
    simp [Memory.read, show k ≠ a by omega, show a < k by omega]

theorem Memory.read_place {rest : Memory} {a : Nat} (b : Byte) (h : Memory.wfFrom (a + 1) rest = true) (x : Nat) :
    (Memory.place a b rest).read x = if x = a then b else rest.read x := by
  unfold Memory.place
  split
  · next e =>
    split
    · next hx => rw [hx, Memory.read_of_wfFrom h (by omega), e]
    · rfl
  · rw [Memory.read]
    by_cases hx : x = a
    · simp [hx]
    · by_cases hlt : x < a
      · simp [hx, hlt, Ne.symm hx, Memory.read_of_wfFrom h (show x < a + 1 by omega)]
      · simp [hx, hlt, Ne.symm hx]

theorem Memory.read_writeFrom {m : Memory} {lo a : Nat} (b : Byte) (hlo : lo ≤ a) (h : Memory.wfFrom lo m = true)
    (x : Nat) : (Memory.write m a b).read x = if x = a then b else m.read x := by
  induction m generalizing lo with
  | nil => exact Memory.read_place b rfl x
  | cons c rest ih =>
    obtain ⟨k, d⟩ := c
    simp only [Memory.wfFrom, Bool.and_eq_true, decide_eq_true_eq] at h
    obtain ⟨⟨⟨h1, h2⟩, h3⟩, h4⟩ := h
    rw [Memory.write]
    split
    · refine Memory.read_place b ?_ x
      simp only [Memory.wfFrom, Bool.and_eq_true, decide_eq_true_eq]
      exact ⟨⟨⟨by omega, h2⟩, h3⟩, h4⟩
    · split
      · next e =>
        subst e
        rw [Memory.read_place b h4 x]
        by_cases hx : x = a
        · simp [hx]
        · by_cases hlt : x < a
          · simp [Memory.read, hx, hlt, Ne.symm hx, Memory.read_of_wfFrom h4 (show x < a + 1 by omega)]
          · simp [Memory.read, hx, hlt, Ne.symm hx]
      · simp only [Memory.read, ih (show k + 1 ≤ a by omega) h4]
        by_cases hk : k = x
        · simp [hk, show x ≠ a by omega]
        · by_cases hlt : x < k
          · simp [hk, hlt, show x ≠ a by omega]
          · simp [hk, hlt]

/-- A read after a store, both cases at once: the stored byte at its address, the old byte elsewhere. -/
theorem Memory.read_write {m : Memory} (h : m.wf = true) (a : Nat) (b : Byte) (x : Nat) :
    (Memory.write m a b).read x = if x = a then b else m.read x :=
  Memory.read_writeFrom b (Nat.zero_le a) h x

/-! ## The checked accesses -/

theorem memRead1_ok {m : Memory} {a : Nat} (h : a < memSize) : memRead1 m a = .ok (m.read a) := by
  simp [memRead1, Nat.not_le.mpr h]

theorem memRead1_error {m : Memory} {a : Nat} (h : memSize ≤ a) : memRead1 m a = .error (.addressingFault a) := by
  simp [memRead1, h]

theorem memWrite1_ok {m : Memory} {a : Nat} (b : Byte) (h : a < memSize) : memWrite1 m a b = .ok (m.write a b) := by
  simp [memWrite1, Nat.not_le.mpr h]

theorem memWrite1_error {m : Memory} {a : Nat} (b : Byte) (h : memSize ≤ a) :
    memWrite1 m a b = .error (.addressingFault a) := by
  simp [memWrite1, h]

/-- A fetch inside memory answers the big-endian word. -/
theorem memRead2_ok {m : Memory} {a : Nat} (h : a + 1 < memSize) :
    memRead2 m a = .ok (wordOfBytes (m.read a) (m.read (a + 1))) := by
  simp [memRead2, memRead1_ok h, memRead1_ok (show a < memSize by omega)]

/-- A fetch that reaches past memory faults with the lower of the offending addresses. -/
theorem memRead2_error {m : Memory} {a : Nat} (h : memSize ≤ a + 1) :
    memRead2 m a = .error (.addressingFault (max a memSize)) := by
  unfold memRead2
  by_cases ha : a < memSize
  · rw [memRead1_ok ha]
    simp [memRead1_error h, show max a memSize = a + 1 by omega]
  · rw [memRead1_error (show memSize ≤ a by omega)]
    simp [show max a memSize = a by omega]

/-- Everything a run of reads can do. -/
theorem memReadBytes_eq (m : Memory) (n base : Nat) :
    memReadBytes m base n =
      if n = 0 ∨ base + n ≤ memSize then .ok ((List.range n).map fun j => m.read (base + j))
      else .error (.addressingFault (max base memSize)) := by
  induction n generalizing base with
  | zero => simp [memReadBytes]
  | succ n ih =>
    rw [memReadBytes]
    by_cases hb : base < memSize
    · rw [memRead1_ok hb]
      simp only [ih]
      by_cases hn : n = 0 ∨ base + 1 + n ≤ memSize
      · have : base + (n + 1) ≤ memSize := by omega
        simp [this, List.range_succ_eq_map, Function.comp_def, Nat.add_assoc, Nat.add_comm 1]
      · have : ¬ base + (n + 1) ≤ memSize := by omega
        simp [hn, this, show max (base + 1) memSize = max base memSize by omega]
    · rw [memRead1_error (by omega)]
      simp [show ¬ base + (n + 1) ≤ memSize by omega, show max base memSize = base by omega]

/-- A run of writes that lies in memory is the unchecked load of the same bytes; otherwise it faults with the
lowest offending address. -/
theorem memWriteBytes_eq (bs : List Byte) (m : Memory) (base : Nat) :
    memWriteBytes m base bs =
      if bs = [] ∨ base + bs.length ≤ memSize then .ok (m.load base bs)
      else .error (.addressingFault (max base memSize)) := by
  induction bs generalizing m base with
  | nil => simp [memWriteBytes, Memory.load]
  | cons b bs ih =>
    rw [memWriteBytes]
    by_cases hb : base < memSize
    · rw [memWrite1_ok b hb]
      simp only [ih, List.length_cons, Memory.load]
      by_cases hn : bs = [] ∨ base + 1 + bs.length ≤ memSize
      · have : base + (bs.length + 1) ≤ memSize := by
          rcases hn with rfl | hn
          · simp; omega
          · omega
        simp [hn, this]
      · have : ¬ base + (bs.length + 1) ≤ memSize := by omega
        simp [hn, this, show max (base + 1) memSize = max base memSize by omega]
    · rw [memWrite1_error b (by omega)]
      simp [show ¬ base + (bs.length + 1) ≤ memSize by omega, show max base memSize = base by omega]

/-- A load leaves the j-th byte at `base + j` and every other address alone. -/
theorem Memory.read_load (bs : List Byte) {m : Memory} {base : Nat} (hb : base + bs.length ≤ memSize)
    (h : m.wf = true) (x : Nat) :
    (m.load base bs).read x = if base ≤ x ∧ x < base + bs.length then bs.getD (x - base) 0 else m.read x := by
  induction bs generalizing m base with
  | nil => simp [Memory.load]
  | cons b bs ih =>
    simp only [List.length_cons] at hb
    rw [Memory.load, ih (by omega) (Memory.write_wf b (by omega) h), Memory.read_write h]
    simp only [List.length_cons]
    by_cases h1 : x = base
    · simp [h1]
    · by_cases h2 : base + 1 ≤ x
      · have h3 : x - base = (x - (base + 1)) + 1 := by omega
        have h4 : x < base + 1 + bs.length ↔ x < base + (bs.length + 1) := by omega
        simp [h1, h2, h3, h4, show base ≤ x by omega]
      · simp [h1, h2, show ¬ base ≤ x by omega]

/-- A checked run of writes keeps the canonical form. -/
theorem memWriteBytes_wf {bs : List Byte} {m m' : Memory} {base : Nat} (h : memWriteBytes m base bs = .ok m')
    (hm : m.wf = true) : m'.wf = true := by
  rw [memWriteBytes_eq] at h
  split at h
  · next hc =>
    cases h
    rcases hc with rfl | hc
    · exact hm
    · exact Memory.load_wf bs hc hm
  · cases h

/-- A checked store of a byte keeps the canonical form. -/
theorem memWrite1_wf {m m' : Memory} {a : Nat} {b : Byte} (h : memWrite1 m a b = .ok m') (hm : m.wf = true) :
    m'.wf = true := by
  unfold memWrite1 at h
  split at h
  · cases h
  · cases h; exact Memory.write_wf b (by omega) hm

/-- A checked store of a word keeps the canonical form. -/
theorem memWrite2_wf {m m' : Memory} {a : Nat} {w : Word} (h : memWrite2 m a w = .ok m') (hm : m.wf = true) :
    m'.wf = true := by
  unfold memWrite2 at h
  split at h
  · cases h
  · exact memWrite1_wf h (memWrite1_wf ‹_› hm)

/-- Memory after reset is in canonical form. -/
theorem State.reset_mem_wf : State.reset.mem.wf = true := rfl

/-- Whatever fault is taken, the memory is in canonical form. -/
theorem State.takeFault_mem_wf (s : State) (c : Fault) : (s.takeFault c).mem.wf = true := Memory.canon_wf _

/-- Placing a word where the next step fetches keeps the canonical form. -/
theorem State.withWordAtPc_mem_wf {s : State} (w : Word) (h : s.mem.wf = true) : (s.withWordAtPc w).mem.wf = true := by
  refine Memory.load_wf _ ?_ h
  unfold fetchablePc
  split
  · simp_all [bytesOfWord, memSize]
    omega
  · simp [bytesOfWord, memSize]

end Sys2Proof.Machine
end

