-- ==== Sys2Proof/Laws/State.lean ====
section
/-! SUPPORT. One lemma per field per named update of the state, each true by unfolding that update alone, so that no
later proof unfolds a record update. -/

namespace Sys2Proof.Machine

variable (s : State)

/-! ### setV -/

@[simp] theorem State.setV_i (r : Nibble) (b : Byte) : (s.setV r b).i = s.i := rfl
@[simp] theorem State.setV_pc (r : Nibble) (b : Byte) : (s.setV r b).pc = s.pc := rfl
@[simp] theorem State.setV_sp (r : Nibble) (b : Byte) : (s.setV r b).sp = s.sp := rfl
@[simp] theorem State.setV_stack (r : Nibble) (b : Byte) : (s.setV r b).stack = s.stack := rfl
@[simp] theorem State.setV_dt (r : Nibble) (b : Byte) : (s.setV r b).dt = s.dt := rfl
@[simp] theorem State.setV_st (r : Nibble) (b : Byte) : (s.setV r b).st = s.st := rfl
@[simp] theorem State.setV_mem (r : Nibble) (b : Byte) : (s.setV r b).mem = s.mem := rfl
@[simp] theorem State.setV_pix (r : Nibble) (b : Byte) : (s.setV r b).pix = s.pix := rfl
@[simp] theorem State.setV_key (r : Nibble) (b : Byte) : (s.setV r b).key = s.key := rfl
@[simp] theorem State.setV_wait (r : Nibble) (b : Byte) : (s.setV r b).wait = s.wait := rfl
@[simp] theorem State.setV_wx (r : Nibble) (b : Byte) : (s.setV r b).wx = s.wx := rfl
@[simp] theorem State.setV_fault (r : Nibble) (b : Byte) : (s.setV r b).fault = s.fault := rfl
@[simp] theorem State.setV_draws (r : Nibble) (b : Byte) : (s.setV r b).draws = s.draws := rfl
@[simp] theorem State.setV_getKey (r : Nibble) (b : Byte) (k' : Nibble) : (s.setV r b).getKey k' = s.getKey k' := rfl

/-! ### setI -/

@[simp] theorem State.setI_v (w : Word) : (s.setI w).v = s.v := rfl
@[simp] theorem State.setI_i (w : Word) : (s.setI w).i = w := rfl
@[simp] theorem State.setI_pc (w : Word) : (s.setI w).pc = s.pc := rfl
@[simp] theorem State.setI_sp (w : Word) : (s.setI w).sp = s.sp := rfl
@[simp] theorem State.setI_stack (w : Word) : (s.setI w).stack = s.stack := rfl
@[simp] theorem State.setI_dt (w : Word) : (s.setI w).dt = s.dt := rfl
@[simp] theorem State.setI_st (w : Word) : (s.setI w).st = s.st := rfl
@[simp] theorem State.setI_mem (w : Word) : (s.setI w).mem = s.mem := rfl
@[simp] theorem State.setI_pix (w : Word) : (s.setI w).pix = s.pix := rfl
@[simp] theorem State.setI_key (w : Word) : (s.setI w).key = s.key := rfl
@[simp] theorem State.setI_wait (w : Word) : (s.setI w).wait = s.wait := rfl
@[simp] theorem State.setI_wx (w : Word) : (s.setI w).wx = s.wx := rfl
@[simp] theorem State.setI_fault (w : Word) : (s.setI w).fault = s.fault := rfl
@[simp] theorem State.setI_draws (w : Word) : (s.setI w).draws = s.draws := rfl
@[simp] theorem State.setI_getV (w : Word) (r : Nibble) : (s.setI w).getV r = s.getV r := rfl
@[simp] theorem State.setI_getKey (w : Word) (k' : Nibble) : (s.setI w).getKey k' = s.getKey k' := rfl

/-! ### setPc -/

@[simp] theorem State.setPc_v (w : Word) : (s.setPc w).v = s.v := rfl
@[simp] theorem State.setPc_i (w : Word) : (s.setPc w).i = s.i := rfl
@[simp] theorem State.setPc_pc (w : Word) : (s.setPc w).pc = w := rfl
@[simp] theorem State.setPc_sp (w : Word) : (s.setPc w).sp = s.sp := rfl
@[simp] theorem State.setPc_stack (w : Word) : (s.setPc w).stack = s.stack := rfl
@[simp] theorem State.setPc_dt (w : Word) : (s.setPc w).dt = s.dt := rfl
@[simp] theorem State.setPc_st (w : Word) : (s.setPc w).st = s.st := rfl
@[simp] theorem State.setPc_mem (w : Word) : (s.setPc w).mem = s.mem := rfl
@[simp] theorem State.setPc_pix (w : Word) : (s.setPc w).pix = s.pix := rfl
@[simp] theorem State.setPc_key (w : Word) : (s.setPc w).key = s.key := rfl
@[simp] theorem State.setPc_wait (w : Word) : (s.setPc w).wait = s.wait := rfl
@[simp] theorem State.setPc_wx (w : Word) : (s.setPc w).wx = s.wx := rfl
@[simp] theorem State.setPc_fault (w : Word) : (s.setPc w).fault = s.fault := rfl
@[simp] theorem State.setPc_draws (w : Word) : (s.setPc w).draws = s.draws := rfl
@[simp] theorem State.setPc_getV (w : Word) (r : Nibble) : (s.setPc w).getV r = s.getV r := rfl
@[simp] theorem State.setPc_getKey (w : Word) (k' : Nibble) : (s.setPc w).getKey k' = s.getKey k' := rfl

/-! ### advancePc -/

@[simp] theorem State.advancePc_v : s.advancePc.v = s.v := rfl
@[simp] theorem State.advancePc_i : s.advancePc.i = s.i := rfl
@[simp] theorem State.advancePc_pc : s.advancePc.pc = s.pc + 2 := rfl
@[simp] theorem State.advancePc_sp : s.advancePc.sp = s.sp := rfl
@[simp] theorem State.advancePc_stack : s.advancePc.stack = s.stack := rfl
@[simp] theorem State.advancePc_dt : s.advancePc.dt = s.dt := rfl
@[simp] theorem State.advancePc_st : s.advancePc.st = s.st := rfl
@[simp] theorem State.advancePc_mem : s.advancePc.mem = s.mem := rfl
@[simp] theorem State.advancePc_pix : s.advancePc.pix = s.pix := rfl
@[simp] theorem State.advancePc_key : s.advancePc.key = s.key := rfl
@[simp] theorem State.advancePc_wait : s.advancePc.wait = s.wait := rfl
@[simp] theorem State.advancePc_wx : s.advancePc.wx = s.wx := rfl
@[simp] theorem State.advancePc_fault : s.advancePc.fault = s.fault := rfl
@[simp] theorem State.advancePc_draws : s.advancePc.draws = s.draws := rfl
@[simp] theorem State.advancePc_getV (r : Nibble) : s.advancePc.getV r = s.getV r := rfl
@[simp] theorem State.advancePc_getKey (k' : Nibble) : s.advancePc.getKey k' = s.getKey k' := rfl

/-! ### setDt -/

@[simp] theorem State.setDt_v (b : Byte) : (s.setDt b).v = s.v := rfl
@[simp] theorem State.setDt_i (b : Byte) : (s.setDt b).i = s.i := rfl
@[simp] theorem State.setDt_pc (b : Byte) : (s.setDt b).pc = s.pc := rfl
@[simp] theorem State.setDt_sp (b : Byte) : (s.setDt b).sp = s.sp := rfl
@[simp] theorem State.setDt_stack (b : Byte) : (s.setDt b).stack = s.stack := rfl
@[simp] theorem State.setDt_dt (b : Byte) : (s.setDt b).dt = b := rfl
@[simp] theorem State.setDt_st (b : Byte) : (s.setDt b).st = s.st := rfl
@[simp] theorem State.setDt_mem (b : Byte) : (s.setDt b).mem = s.mem := rfl
@[simp] theorem State.setDt_pix (b : Byte) : (s.setDt b).pix = s.pix := rfl
@[simp] theorem State.setDt_key (b : Byte) : (s.setDt b).key = s.key := rfl
@[simp] theorem State.setDt_wait (b : Byte) : (s.setDt b).wait = s.wait := rfl
@[simp] theorem State.setDt_wx (b : Byte) : (s.setDt b).wx = s.wx := rfl
@[simp] theorem State.setDt_fault (b : Byte) : (s.setDt b).fault = s.fault := rfl
@[simp] theorem State.setDt_draws (b : Byte) : (s.setDt b).draws = s.draws := rfl
@[simp] theorem State.setDt_getV (b : Byte) (r : Nibble) : (s.setDt b).getV r = s.getV r := rfl
@[simp] theorem State.setDt_getKey (b : Byte) (k' : Nibble) : (s.setDt b).getKey k' = s.getKey k' := rfl

/-! ### setSt -/

@[simp] theorem State.setSt_v (b : Byte) : (s.setSt b).v = s.v := rfl
@[simp] theorem State.setSt_i (b : Byte) : (s.setSt b).i = s.i := rfl
@[simp] theorem State.setSt_pc (b : Byte) : (s.setSt b).pc = s.pc := rfl
@[simp] theorem State.setSt_sp (b : Byte) : (s.setSt b).sp = s.sp := rfl
@[simp] theorem State.setSt_stack (b : Byte) : (s.setSt b).stack = s.stack := rfl
@[simp] theorem State.setSt_dt (b : Byte) : (s.setSt b).dt = s.dt := rfl
@[simp] theorem State.setSt_st (b : Byte) : (s.setSt b).st = b := rfl
@[simp] theorem State.setSt_mem (b : Byte) : (s.setSt b).mem = s.mem := rfl
@[simp] theorem State.setSt_pix (b : Byte) : (s.setSt b).pix = s.pix := rfl
@[simp] theorem State.setSt_key (b : Byte) : (s.setSt b).key = s.key := rfl
@[simp] theorem State.setSt_wait (b : Byte) : (s.setSt b).wait = s.wait := rfl
@[simp] theorem State.setSt_wx (b : Byte) : (s.setSt b).wx = s.wx := rfl
@[simp] theorem State.setSt_fault (b : Byte) : (s.setSt b).fault = s.fault := rfl
@[simp] theorem State.setSt_draws (b : Byte) : (s.setSt b).draws = s.draws := rfl
@[simp] theorem State.setSt_getV (b : Byte) (r : Nibble) : (s.setSt b).getV r = s.getV r := rfl
@[simp] theorem State.setSt_getKey (b : Byte) (k' : Nibble) : (s.setSt b).getKey k' = s.getKey k' := rfl

/-! ### setMem -/

@[simp] theorem State.setMem_v (m : Memory) : (s.setMem m).v = s.v := rfl
@[simp] theorem State.setMem_i (m : Memory) : (s.setMem m).i = s.i := rfl
@[simp] theorem State.setMem_pc (m : Memory) : (s.setMem m).pc = s.pc := rfl
@[simp] theorem State.setMem_sp (m : Memory) : (s.setMem m).sp = s.sp := rfl
@[simp] theorem State.setMem_stack (m : Memory) : (s.setMem m).stack = s.stack := rfl
@[simp] theorem State.setMem_dt (m : Memory) : (s.setMem m).dt = s.dt := rfl
@[simp] theorem State.setMem_st (m : Memory) : (s.setMem m).st = s.st := rfl
@[simp] theorem State.setMem_mem (m : Memory) : (s.setMem m).mem = m := rfl
@[simp] theorem State.setMem_pix (m : Memory) : (s.setMem m).pix = s.pix := rfl
@[simp] theorem State.setMem_key (m : Memory) : (s.setMem m).key = s.key := rfl
@[simp] theorem State.setMem_wait (m : Memory) : (s.setMem m).wait = s.wait := rfl
@[simp] theorem State.setMem_wx (m : Memory) : (s.setMem m).wx = s.wx := rfl
@[simp] theorem State.setMem_fault (m : Memory) : (s.setMem m).fault = s.fault := rfl
@[simp] theorem State.setMem_draws (m : Memory) : (s.setMem m).draws = s.draws := rfl
@[simp] theorem State.setMem_getV (m : Memory) (r : Nibble) : (s.setMem m).getV r = s.getV r := rfl
@[simp] theorem State.setMem_getKey (m : Memory) (k' : Nibble) : (s.setMem m).getKey k' = s.getKey k' := rfl

/-! ### setPix -/

@[simp] theorem State.setPix_v (p : Pixels) : (s.setPix p).v = s.v := rfl
@[simp] theorem State.setPix_i (p : Pixels) : (s.setPix p).i = s.i := rfl
@[simp] theorem State.setPix_pc (p : Pixels) : (s.setPix p).pc = s.pc := rfl
@[simp] theorem State.setPix_sp (p : Pixels) : (s.setPix p).sp = s.sp := rfl
@[simp] theorem State.setPix_stack (p : Pixels) : (s.setPix p).stack = s.stack := rfl
@[simp] theorem State.setPix_dt (p : Pixels) : (s.setPix p).dt = s.dt := rfl
@[simp] theorem State.setPix_st (p : Pixels) : (s.setPix p).st = s.st := rfl
@[simp] theorem State.setPix_mem (p : Pixels) : (s.setPix p).mem = s.mem := rfl
@[simp] theorem State.setPix_pix (p : Pixels) : (s.setPix p).pix = p := rfl
@[simp] theorem State.setPix_key (p : Pixels) : (s.setPix p).key = s.key := rfl
@[simp] theorem State.setPix_wait (p : Pixels) : (s.setPix p).wait = s.wait := rfl
@[simp] theorem State.setPix_wx (p : Pixels) : (s.setPix p).wx = s.wx := rfl
@[simp] theorem State.setPix_fault (p : Pixels) : (s.setPix p).fault = s.fault := rfl
@[simp] theorem State.setPix_draws (p : Pixels) : (s.setPix p).draws = s.draws := rfl
@[simp] theorem State.setPix_getV (p : Pixels) (r : Nibble) : (s.setPix p).getV r = s.getV r := rfl
@[simp] theorem State.setPix_getKey (p : Pixels) (k' : Nibble) : (s.setPix p).getKey k' = s.getKey k' := rfl

/-! ### setKey -/

@[simp] theorem State.setKey_v (k : Nibble) (b : Bool) : (s.setKey k b).v = s.v := rfl
@[simp] theorem State.setKey_i (k : Nibble) (b : Bool) : (s.setKey k b).i = s.i := rfl
@[simp] theorem State.setKey_pc (k : Nibble) (b : Bool) : (s.setKey k b).pc = s.pc := rfl
@[simp] theorem State.setKey_sp (k : Nibble) (b : Bool) : (s.setKey k b).sp = s.sp := rfl
@[simp] theorem State.setKey_stack (k : Nibble) (b : Bool) : (s.setKey k b).stack = s.stack := rfl
@[simp] theorem State.setKey_dt (k : Nibble) (b : Bool) : (s.setKey k b).dt = s.dt := rfl
@[simp] theorem State.setKey_st (k : Nibble) (b : Bool) : (s.setKey k b).st = s.st := rfl
@[simp] theorem State.setKey_mem (k : Nibble) (b : Bool) : (s.setKey k b).mem = s.mem := rfl
@[simp] theorem State.setKey_pix (k : Nibble) (b : Bool) : (s.setKey k b).pix = s.pix := rfl
@[simp] theorem State.setKey_wait (k : Nibble) (b : Bool) : (s.setKey k b).wait = s.wait := rfl
@[simp] theorem State.setKey_wx (k : Nibble) (b : Bool) : (s.setKey k b).wx = s.wx := rfl
@[simp] theorem State.setKey_fault (k : Nibble) (b : Bool) : (s.setKey k b).fault = s.fault := rfl
@[simp] theorem State.setKey_draws (k : Nibble) (b : Bool) : (s.setKey k b).draws = s.draws := rfl
@[simp] theorem State.setKey_getV (k : Nibble) (b : Bool) (r : Nibble) : (s.setKey k b).getV r = s.getV r := rfl

/-! ### beginWait -/

@[simp] theorem State.beginWait_v (x : Nibble) : (s.beginWait x).v = s.v := rfl
@[simp] theorem State.beginWait_i (x : Nibble) : (s.beginWait x).i = s.i := rfl
@[simp] theorem State.beginWait_pc (x : Nibble) : (s.beginWait x).pc = s.pc := rfl
@[simp] theorem State.beginWait_sp (x : Nibble) : (s.beginWait x).sp = s.sp := rfl
@[simp] theorem State.beginWait_stack (x : Nibble) : (s.beginWait x).stack = s.stack := rfl
@[simp] theorem State.beginWait_dt (x : Nibble) : (s.beginWait x).dt = s.dt := rfl
@[simp] theorem State.beginWait_st (x : Nibble) : (s.beginWait x).st = s.st := rfl
@[simp] theorem State.beginWait_mem (x : Nibble) : (s.beginWait x).mem = s.mem := rfl
@[simp] theorem State.beginWait_pix (x : Nibble) : (s.beginWait x).pix = s.pix := rfl
@[simp] theorem State.beginWait_key (x : Nibble) : (s.beginWait x).key = s.key := rfl
@[simp] theorem State.beginWait_wait (x : Nibble) : (s.beginWait x).wait = true := rfl
@[simp] theorem State.beginWait_wx (x : Nibble) : (s.beginWait x).wx = x := rfl
@[simp] theorem State.beginWait_fault (x : Nibble) : (s.beginWait x).fault = s.fault := rfl
@[simp] theorem State.beginWait_draws (x : Nibble) : (s.beginWait x).draws = s.draws := rfl
@[simp] theorem State.beginWait_getV (x : Nibble) (r : Nibble) : (s.beginWait x).getV r = s.getV r := rfl
@[simp] theorem State.beginWait_getKey (x : Nibble) (k' : Nibble) : (s.beginWait x).getKey k' = s.getKey k' := rfl

/-! ### deliverKey -/

@[simp] theorem State.deliverKey_i (k : Nibble) : (s.deliverKey k).i = s.i := rfl
@[simp] theorem State.deliverKey_pc (k : Nibble) : (s.deliverKey k).pc = s.pc := rfl
@[simp] theorem State.deliverKey_sp (k : Nibble) : (s.deliverKey k).sp = s.sp := rfl
@[simp] theorem State.deliverKey_stack (k : Nibble) : (s.deliverKey k).stack = s.stack := rfl
@[simp] theorem State.deliverKey_dt (k : Nibble) : (s.deliverKey k).dt = s.dt := rfl
@[simp] theorem State.deliverKey_st (k : Nibble) : (s.deliverKey k).st = s.st := rfl
@[simp] theorem State.deliverKey_mem (k : Nibble) : (s.deliverKey k).mem = s.mem := rfl
@[simp] theorem State.deliverKey_pix (k : Nibble) : (s.deliverKey k).pix = s.pix := rfl
@[simp] theorem State.deliverKey_key (k : Nibble) : (s.deliverKey k).key = s.key := rfl
@[simp] theorem State.deliverKey_wait (k : Nibble) : (s.deliverKey k).wait = false := rfl
@[simp] theorem State.deliverKey_wx (k : Nibble) : (s.deliverKey k).wx = s.wx := rfl
@[simp] theorem State.deliverKey_fault (k : Nibble) : (s.deliverKey k).fault = s.fault := rfl
@[simp] theorem State.deliverKey_draws (k : Nibble) : (s.deliverKey k).draws = s.draws := rfl
@[simp] theorem State.deliverKey_getKey (k : Nibble) (k' : Nibble) : (s.deliverKey k).getKey k' = s.getKey k' := rfl

/-! ### drawn -/

@[simp] theorem State.drawn_v : s.drawn.v = s.v := rfl
@[simp] theorem State.drawn_i : s.drawn.i = s.i := rfl
@[simp] theorem State.drawn_pc : s.drawn.pc = s.pc := rfl
@[simp] theorem State.drawn_sp : s.drawn.sp = s.sp := rfl
@[simp] theorem State.drawn_stack : s.drawn.stack = s.stack := rfl
@[simp] theorem State.drawn_dt : s.drawn.dt = s.dt := rfl
@[simp] theorem State.drawn_st : s.drawn.st = s.st := rfl
@[simp] theorem State.drawn_mem : s.drawn.mem = s.mem := rfl
@[simp] theorem State.drawn_pix : s.drawn.pix = s.pix := rfl
@[simp] theorem State.drawn_key : s.drawn.key = s.key := rfl
@[simp] theorem State.drawn_wait : s.drawn.wait = s.wait := rfl
@[simp] theorem State.drawn_wx : s.drawn.wx = s.wx := rfl
@[simp] theorem State.drawn_fault : s.drawn.fault = s.fault := rfl
@[simp] theorem State.drawn_draws : s.drawn.draws = s.draws + 1 := rfl
@[simp] theorem State.drawn_getV (r : Nibble) : s.drawn.getV r = s.getV r := rfl
@[simp] theorem State.drawn_getKey (k' : Nibble) : s.drawn.getKey k' = s.getKey k' := rfl

/-! ### setFlag -/

@[simp] theorem State.setFlag_i (b : Bool) : (s.setFlag b).i = s.i := rfl
@[simp] theorem State.setFlag_pc (b : Bool) : (s.setFlag b).pc = s.pc := rfl
@[simp] theorem State.setFlag_sp (b : Bool) : (s.setFlag b).sp = s.sp := rfl
@[simp] theorem State.setFlag_stack (b : Bool) : (s.setFlag b).stack = s.stack := rfl
@[simp] theorem State.setFlag_dt (b : Bool) : (s.setFlag b).dt = s.dt := rfl
@[simp] theorem State.setFlag_st (b : Bool) : (s.setFlag b).st = s.st := rfl
@[simp] theorem State.setFlag_mem (b : Bool) : (s.setFlag b).mem = s.mem := rfl
@[simp] theorem State.setFlag_pix (b : Bool) : (s.setFlag b).pix = s.pix := rfl
@[simp] theorem State.setFlag_key (b : Bool) : (s.setFlag b).key = s.key := rfl
@[simp] theorem State.setFlag_wait (b : Bool) : (s.setFlag b).wait = s.wait := rfl
@[simp] theorem State.setFlag_wx (b : Bool) : (s.setFlag b).wx = s.wx := rfl
@[simp] theorem State.setFlag_fault (b : Bool) : (s.setFlag b).fault = s.fault := rfl
@[simp] theorem State.setFlag_draws (b : Bool) : (s.setFlag b).draws = s.draws := rfl
@[simp] theorem State.setFlag_getKey (b : Bool) (k' : Nibble) : (s.setFlag b).getKey k' = s.getKey k' := rfl

/-! ### skipIf -/

@[simp] theorem State.skipIf_v (c : Bool) : (s.skipIf c).v = s.v := by cases c <;> rfl
@[simp] theorem State.skipIf_i (c : Bool) : (s.skipIf c).i = s.i := by cases c <;> rfl
@[simp] theorem State.skipIf_pc (c : Bool) : (s.skipIf c).pc = if c then s.pc + 2 else s.pc := by cases c <;> rfl
@[simp] theorem State.skipIf_sp (c : Bool) : (s.skipIf c).sp = s.sp := by cases c <;> rfl
@[simp] theorem State.skipIf_stack (c : Bool) : (s.skipIf c).stack = s.stack := by cases c <;> rfl
@[simp] theorem State.skipIf_dt (c : Bool) : (s.skipIf c).dt = s.dt := by cases c <;> rfl
@[simp] theorem State.skipIf_st (c : Bool) : (s.skipIf c).st = s.st := by cases c <;> rfl
@[simp] theorem State.skipIf_mem (c : Bool) : (s.skipIf c).mem = s.mem := by cases c <;> rfl
@[simp] theorem State.skipIf_pix (c : Bool) : (s.skipIf c).pix = s.pix := by cases c <;> rfl
@[simp] theorem State.skipIf_key (c : Bool) : (s.skipIf c).key = s.key := by cases c <;> rfl
@[simp] theorem State.skipIf_wait (c : Bool) : (s.skipIf c).wait = s.wait := by cases c <;> rfl
@[simp] theorem State.skipIf_wx (c : Bool) : (s.skipIf c).wx = s.wx := by cases c <;> rfl
@[simp] theorem State.skipIf_fault (c : Bool) : (s.skipIf c).fault = s.fault := by cases c <;> rfl
@[simp] theorem State.skipIf_draws (c : Bool) : (s.skipIf c).draws = s.draws := by cases c <;> rfl
@[simp] theorem State.skipIf_getV (c : Bool) (r : Nibble) : (s.skipIf c).getV r = s.getV r := by cases c <;> rfl
@[simp] theorem State.skipIf_getKey (c : Bool) (k : Nibble) : (s.skipIf c).getKey k = s.getKey k := by cases c <;> rfl

/-! ### takeFault: only FAULT, and that the memory is in canonical form, can be said (rule R206) -/

@[simp] theorem State.takeFault_fault (c : Fault) : (s.takeFault c).fault = some c := rfl

/-! ### withWordAtPc -/

@[simp] theorem State.withWordAtPc_wait (w : Word) : (s.withWordAtPc w).wait = false := rfl
@[simp] theorem State.withWordAtPc_fault (w : Word) : (s.withWordAtPc w).fault = none := rfl
@[simp] theorem State.withWordAtPc_pc (w : Word) : (s.withWordAtPc w).pc = fetchablePc s.pc := rfl

end Sys2Proof.Machine
end

