-- ==== Sys2Proof/Laws/Registers.lean ====
section
/-! SUPPORT. Read after write of the register file and the keypad, and what a run of loads leaves. -/

namespace Sys2Proof.Machine

variable (s : State)

@[simp] theorem State.getV_setV_same (r : Nibble) (b : Byte) : (s.setV r b).getV r = b := by
  simp [State.getV, State.setV]

theorem State.getV_setV_ne {r q : Nibble} (b : Byte) (h : r ≠ q) : (s.setV q b).getV r = s.getV r := by
  have : q.toNat ≠ r.toNat := fun e => h (BitVec.eq_of_toNat_eq e.symm)
  simp [State.getV, State.setV, Vector.getElem_set_ne _ _ this]

/-- A read after a write, both cases at once. -/
theorem State.getV_setV (r q : Nibble) (b : Byte) :
    (s.setV q b).getV r = if r = q then b else s.getV r := by
  split
  · subst r; simp
  · exact s.getV_setV_ne b ‹_›

theorem State.getV_setFlag (r : Nibble) (b : Bool) :
    (s.setFlag b).getV r = if r = vf then flagByte b else s.getV r := s.getV_setV r vf _

/-- A key read after a key write. -/
theorem State.getKey_setKey (k q : Nibble) (b : Bool) :
    (s.setKey q b).getKey k = if k = q then b else s.getKey k := by
  split
  · subst k; simp [State.getKey, State.setKey]
  · have : q.toNat ≠ k.toNat := fun e => ‹k ≠ q› (BitVec.eq_of_toNat_eq e.symm)
    simp [State.getKey, State.setKey, Vector.getElem_set_ne _ _ this]

/-- The delivered key lies in V[WX], the other registers keep their values (rule R185). -/
theorem State.getV_deliverKey (k r : Nibble) :
    (s.deliverKey k).getV r = if r = s.wx then k.setWidth 8 else s.getV r := s.getV_setV r s.wx _

/-- A run of register loads from V[k] on leaves the j-th byte in V[k + j] and every other register alone. -/
theorem State.getV_loadRegs (bs : List Byte) (k : Nat) (hk : k + bs.length ≤ 16) (r : Nibble) :
    (s.loadRegs k bs).getV r = if k ≤ r.toNat ∧ r.toNat < k + bs.length then bs.getD (r.toNat - k) 0 else s.getV r := by
  induction bs generalizing s k with
  | nil => simp [State.loadRegs]
  | cons b bs ih =>
    simp only [List.length_cons] at hk
    rw [State.loadRegs, ih _ _ (by omega), State.getV_setV]
    have hr : r = BitVec.ofNat 4 k ↔ r.toNat = k := by
      rw [← BitVec.toNat_inj, BitVec.toNat_ofNat, Nat.mod_eq_of_lt (by omega)]
    simp only [hr, List.length_cons]
    by_cases h1 : r.toNat = k
    · simp [h1]
    · by_cases h2 : k + 1 ≤ r.toNat
      · have h3 : r.toNat - k = (r.toNat - (k + 1)) + 1 := by omega
        have h4 : r.toNat < k + 1 + bs.length ↔ r.toNat < k + (bs.length + 1) := by omega
        simp [h1, h2, h3, h4, show k ≤ r.toNat by omega]
      · simp [h1, h2, show ¬ k ≤ r.toNat by omega]

/-- A run of register loads changes registers only. -/
theorem State.loadRegs_eq (bs : List Byte) (k : Nat) : ∃ v, s.loadRegs k bs = { s with v := v } := by
  induction bs generalizing s k with
  | nil => exact ⟨s.v, rfl⟩
  | cons b bs ih => exact (ih (s.setV _ b) (k + 1)).imp fun v h => h

@[simp] theorem State.firstRegs_length (x : Nibble) : (s.firstRegs x).length = x.toNat + 1 := by
  simp [State.firstRegs]

/-- The j-th of the register values V0 to Vx is V[j]. -/
theorem State.firstRegs_getD (x r : Nibble) (h : r.toNat ≤ x.toNat) : (s.firstRegs x).getD r.toNat 0 = s.getV r := by
  have : r.toNat < (s.firstRegs x).length := by rw [s.firstRegs_length]; omega
  rw [List.getD_eq_getElem _ _ this]
  simp [State.firstRegs]

end Sys2Proof.Machine
end

