-- ==== Sys2Proof/Laws/Ops.lean ====
section
/-! SUPPORT. Everything the shared operations can answer, one lemma per operation: the guard `attempt`, the stack,
key numbers, the fetch, the selection of an instruction, the step with and without its byte, Reset, runs. -/

namespace Sys2Proof.Machine

variable (s : State)

/-! ## The guard -/

@[simp] theorem State.attempt_ok {α : Type} (a : α) (k : α → Host.Outcome State Fault Refusal) :
    s.attempt (.ok a) k = k a := rfl

@[simp] theorem State.attempt_error {α : Type} (c : Fault) (k : α → Host.Outcome State Fault Refusal) :
    s.attempt (.error c) k = .next (s.takeFault c) := rfl

/-- If the guard answers a next state, either the checked operation went through, or its fault was taken. -/
theorem State.attempt_cases {s t : State} {α : Type} {r : Except Fault α} {k : α → Host.Outcome State Fault Refusal}
    (h : s.attempt r k = .next t) :
    (∃ a, r = .ok a ∧ k a = .next t) ∨ (∃ c, r = .error c ∧ t = s.takeFault c) := by
  cases r with
  | ok a => exact .inl ⟨a, rfl, h⟩
  | error c => exact .inr ⟨c, rfl, by cases h; rfl⟩

/-- The guard with a continuation that always answers a next state always answers one. -/
theorem State.attempt_next {α : Type} (r : Except Fault α) {k : α → Host.Outcome State Fault Refusal}
    (hk : ∀ a, ∃ t, k a = .next t) : ∃ t, s.attempt r k = .next t := by
  cases r with
  | ok a => exact hk a
  | error c => exact ⟨_, rfl⟩

/-! ## The stack -/

theorem State.push_ok (w : Word) (h : s.sp.val < 16) :
    s.push w = .ok { s with stack := s.stack.set s.sp.val w h, sp := ⟨s.sp.val + 1, by omega⟩ } := by
  simp [State.push, h]

theorem State.push_error (w : Word) (h : ¬ s.sp.val < 16) : s.push w = .error (.stackFault .overflow) := by
  simp [State.push, h]

theorem State.pop_ok (h : s.sp.val ≠ 0) :
    s.pop = .ok (s.stack[s.sp.val - 1]'(by omega), { s with sp := ⟨s.sp.val - 1, by omega⟩ }) := by
  simp [State.pop, h]

theorem State.pop_error (h : s.sp.val = 0) : s.pop = .error (.stackFault .underflow) := by
  simp [State.pop, h]

/-! ## Key numbers -/

theorem keyIndex_ok {b : Byte} (h : b.toNat ≤ 15) : keyIndex b = .ok (b.setWidth 4) := by
  simp [keyIndex, Nat.not_lt.mpr h]

theorem keyIndex_error {b : Byte} (h : 15 < b.toNat) : keyIndex b = .error (.keyIndexFault b) := by
  simp [keyIndex, h]

/-! ## Fetching and selecting -/

theorem State.fetch_ok (h : s.pc.toNat + 1 < memSize) :
    s.fetch = .ok (wordOfBytes (s.mem.read s.pc.toNat) (s.mem.read (s.pc.toNat + 1))) := memRead2_ok h

theorem State.fetch_error (h : memSize ≤ s.pc.toNat + 1) :
    s.fetch = .error (.addressingFault (max s.pc.toNat memSize)) := memRead2_error h

/-- A fetch that goes through lies in memory. -/
theorem State.pc_of_fetch {s : State} {w : Word} (h : s.fetch = .ok w) : s.pc.toNat + 1 < memSize := by
  refine Decidable.byContradiction fun hn => ?_
  rw [s.fetch_error (by omega)] at h
  cases h

theorem selectInstr_ok {w : Word} {i : Instr} (h : decodeWord w = some i) : selectInstr w = .ok i := by
  simp [selectInstr, h]

theorem selectInstr_error {w : Word} (h : decodeWord w = none) :
    selectInstr w = .error (.unsupportedInstruction w) := by
  simp [selectInstr, h]

/-! ## The step -/

section
variable (run : Instr → State → Host.Outcome State Fault Refusal)

theorem State.stepBy_faulted (h : s.fault ≠ none) : s.stepBy run = .next s := by
  simp [State.stepBy, Option.isSome_iff_ne_none.mpr h]

theorem State.stepBy_hold (hf : s.fault = none) (hw : s.wait = true) : s.stepBy run = .next s := by
  simp [State.stepBy, hf, hw]

theorem State.stepBy_run (hf : s.fault = none) (hw : s.wait = false) :
    s.stepBy run = s.attempt s.fetch fun w => s.attempt (selectInstr w) fun i => run i s.advancePc := by
  simp [State.stepBy, hf, hw]

/-- Everything a step can do, however instructions are run: it changes nothing, because a fault is latched or the
core is parked; or it takes a fault of the fetch or of the decode; or it is one instruction, executed with PC past
it. -/
theorem State.stepBy_cases {s t : State} {run : Instr → State → Host.Outcome State Fault Refusal}
    (h : s.stepBy run = .next t) :
    (t = s ∧ (s.fault ≠ none ∨ s.wait = true)) ∨
    (s.fault = none ∧ s.wait = false ∧ ∃ c, t = s.takeFault c) ∨
    (s.fault = none ∧ s.wait = false ∧ s.pc.toNat + 1 < memSize ∧
      ∃ w i, s.fetch = .ok w ∧ decodeWord w = some i ∧ run i s.advancePc = .next t) := by
  by_cases hf : s.fault = none
  · cases hw : s.wait with
    | true => rw [s.stepBy_hold run hf hw] at h; cases h; exact .inl ⟨rfl, .inr rfl⟩
    | false =>
      rw [s.stepBy_run run hf hw] at h
      rcases State.attempt_cases h with ⟨w, hw', h⟩ | ⟨c, -, h⟩
      · rcases State.attempt_cases h with ⟨i, hi, h⟩ | ⟨c, -, h⟩
        · refine .inr (.inr ⟨hf, rfl, State.pc_of_fetch hw', w, i, hw', ?_, h⟩)
          unfold selectInstr at hi
          split at hi
          · cases hi; assumption
          · cases hi
        · exact .inr (.inl ⟨hf, rfl, c, h⟩)
      · exact .inr (.inl ⟨hf, rfl, c, h⟩)
  · rw [s.stepBy_faulted run hf] at h; cases h; exact .inl ⟨rfl, .inl hf⟩

end

theorem step_eq_stepBy : step s = s.stepBy exec := rfl

theorem step_faulted (h : s.fault ≠ none) : step s = .next s := s.stepBy_faulted exec h

theorem step_hold (hf : s.fault = none) (hw : s.wait = true) : step s = .next s := s.stepBy_hold exec hf hw

theorem step_run (hf : s.fault = none) (hw : s.wait = false) :
    step s = s.attempt s.fetch fun w => s.attempt (selectInstr w) fun i => exec i s.advancePc :=
  s.stepBy_run exec hf hw

theorem step_cases {s t : State} (h : step s = .next t) :
    (t = s ∧ (s.fault ≠ none ∨ s.wait = true)) ∨
    (s.fault = none ∧ s.wait = false ∧ ∃ c, t = s.takeFault c) ∨
    (s.fault = none ∧ s.wait = false ∧ s.pc.toNat + 1 < memSize ∧
      ∃ w i, s.fetch = .ok w ∧ decodeWord w = some i ∧ exec i s.advancePc = .next t) := State.stepBy_cases h

/-! ## Step(rnd) -/

theorem execWith_rnd (byte : Byte) (x : Nibble) (kk : Byte) :
    execWith byte (.rnd x kk) s = .next (rndWith byte x kk s) := rfl

/-- The input byte makes no difference to an instruction other than Cxkk. -/
theorem execWith_eq_exec (byte : Byte) {i : Instr} (h : ∀ x kk, i ≠ .rnd x kk) : execWith byte i s = exec i s := by
  cases i <;> first | rfl | exact absurd rfl (h _ _)

/-- An instruction of `step` is the instruction of Step(rnd) with the next byte of the free stream. -/
theorem exec_eq_execWith (i : Instr) : exec i s = execWith (Config.randomByte s.draws) i s := by
  cases i <;> rfl

/-- `step` is Step(rnd) with the next byte of the free stream: a run of steps is one of the schedules. -/
theorem step_eq_stepWith : step s = stepWith (Config.randomByte s.draws) s := by
  have h : ∀ i, exec i s.advancePc = execWith (Config.randomByte s.draws) i s.advancePc := fun i =>
    exec_eq_execWith s.advancePc i
  simp only [step, stepWith, State.stepBy, h]

/-! ## Reset -/

theorem programFits_iff (program : List Byte) : programFits program = true ↔ program.length ≤ 3584 :=
  decide_eq_true_iff

theorem resetWith_fits (glyphs : Font) {program : List Byte} (h : program.length ≤ 3584) :
    resetWith glyphs program =
      some { State.reset with mem := (Memory.load [] 0 glyphs.toList).load loadAddress program } :=
  if_pos ((programFits_iff program).mpr h)

theorem resetWith_too_long (glyphs : Font) {program : List Byte} (h : 3584 < program.length) :
    resetWith glyphs program = none :=
  if_neg fun hp => Nat.not_le.mpr h ((programFits_iff program).mp hp)

/-! ## Runs -/

/-- The first n moves of an infinite schedule are a finite schedule. -/
theorem runForever_eq_runMoves (schedule : Nat → Move) (n : Nat) :
    runForever s schedule n = runMoves s ((List.range n).map schedule) := by
  have app : ∀ (ms : List Move) (m : Move) (s : State), runMoves s (ms ++ [m]) =
      match runMoves s ms with
      | .next t => applyMove t m
      | .fault c => .fault c
      | .refused r => .refused r := by
    intro ms m
    induction ms with
    | nil => intro s; simp only [List.nil_append, runMoves]; cases applyMove s m <;> rfl
    | cons a ms ih => intro s; simp only [List.cons_append, runMoves]; cases applyMove s a <;> simp [ih]
  induction n with
  | zero => rfl
  | succ n ih => rw [List.range_succ, List.map_append, List.map_singleton, app, ← ih]; rfl

end Sys2Proof.Machine
end

