-- ==== Sys2Proof/Laws/Display.lean ====
section
/-! SUPPORT. The compositor, pixel by pixel: a draw toggles exactly the pixels of the sprite's 1 bits, and it collides
exactly when one of them was lit (spec/44_display.md rules R172, R173). -/

namespace Sys2Proof.Machine

/-! ## One pixel -/

theorem Pixels.get_put (p : Pixels) (cx cx' : Fin 64) (cy cy' : Fin 32) (b : Bool) :
    (p.put cx cy b).get cx' cy' = if cx' = cx ∧ cy' = cy then b else p.get cx' cy' := by
  unfold Pixels.put Pixels.get
  by_cases hx : cx' = cx
  · subst hx
    by_cases hy : cy' = cy
    · subst hy; simp
    · have : cy.val ≠ cy'.val := fun e => hy (Fin.ext e.symm)
      simp [hy, Vector.getElem_set_ne _ _ this]
  · have : cx.val ≠ cx'.val := fun e => hx (Fin.ext e.symm)
    simp [hx, Vector.getElem_set_ne _ _ this]

@[simp] theorem Pixels.get_blank (cx : Fin 64) (cy : Fin 32) : Pixels.get blankPixels cx cy = false := by
  simp [Pixels.get, blankPixels]

/-- Two displays with the same pixels are the same display. -/
theorem Pixels.ext_get {p q : Pixels} (h : ∀ cx cy, p.get cx cy = q.get cx cy) : p = q := by
  refine Vector.ext fun cx hx => Vector.ext fun cy hy => h ⟨cx, hx⟩ ⟨cy, hy⟩

/-! ## One row of the sprite -/

/-- The bit a sprite row puts on column `cx`, over the columns listed. -/
def rowBit (x0 : Nat) (b : Byte) (cols : List Nat) (cx : Fin 64) : Bool :=
  cols.any fun col => decide (cx = wrapCol x0 col) && spriteBit b col

theorem column_inj {x0 c d : Nat} (hc : c < 8) (hd : d < 8) (h : wrapCol x0 c = wrapCol x0 d) :
    c = d := by
  have : (x0 + c) % 64 = (x0 + d) % 64 := congrArg Fin.val h
  omega

theorem rowBit_of_not_mem {x0 : Nat} {b : Byte} {cols : List Nat} {c : Nat} (hc : c < 8) (h8 : ∀ d ∈ cols, d < 8)
    (h : c ∉ cols) : rowBit x0 b cols (wrapCol x0 c) = false := by
  rw [rowBit, List.any_eq_false]
  intro d hd
  have : wrapCol x0 c ≠ wrapCol x0 d := fun e => h (column_inj hc (h8 d hd) e ▸ hd)
  simp [this]

/-- The inner loop over distinct columns below 8. -/
theorem plotCols_spec (x0 y0 row : Nat) (b : Byte) (cols : List Nat) (h8 : ∀ c ∈ cols, c < 8) (hn : cols.Nodup)
    (p : Pixels) (co : Bool) :
    let r := cols.foldl (plot x0 y0 row b) (p, co)
    (∀ cx cy, r.1.get cx cy = (p.get cx cy ^^ (decide (cy = wrapRow y0 row) && rowBit x0 b cols cx))) ∧
    r.2 = (co || cols.any fun col => spriteBit b col && p.get (wrapCol x0 col) (wrapRow y0 row)) := by
  induction cols generalizing p co with
  | nil => simp [rowBit]
  | cons c cols ih =>
    obtain ⟨hc, hn⟩ := List.nodup_cons.mp hn
    have h8' : ∀ d ∈ cols, d < 8 := fun d hd => h8 d (List.mem_cons_of_mem _ hd)
    have hc8 : c < 8 := h8 c (List.mem_cons_self ..)
    obtain ⟨ih1, ih2⟩ := ih h8' hn (plot x0 y0 row b (p, co) c).1 (plot x0 y0 row b (p, co) c).2
    simp only [List.foldl_cons]
    refine ⟨fun cx cy => ?_, ?_⟩
    · rw [ih1 cx cy]
      simp only [plot, Pixels.get_put]
      by_cases hx : cx = wrapCol x0 c
      · subst hx
        rw [rowBit_of_not_mem hc8 h8' hc]
        have : rowBit x0 b (c :: cols) (wrapCol x0 c) = spriteBit b c := by
          have := rowBit_of_not_mem (x0 := x0) (b := b) hc8 h8' hc
          rw [rowBit] at this ⊢
          rw [List.any_cons, this]; simp
        rw [this]
        by_cases hy : cy = wrapRow y0 row
        · subst hy; simp
        · simp [hy]
      · have : rowBit x0 b (c :: cols) cx = rowBit x0 b cols cx := by simp [rowBit, hx]
        simp [hx, this]
    · rw [ih2]
      simp only [plot, List.any_cons, Bool.or_assoc]
      congr 2
      rw [Bool.eq_iff_iff, List.any_eq_true, List.any_eq_true]
      refine exists_congr fun d => and_congr_right fun hd => ?_
      have : wrapCol x0 d ≠ wrapCol x0 c := fun e => hc (column_inj (h8' d hd) hc8 e ▸ hd)
      simp [Pixels.get_put, this]

/-! ## The whole sprite -/

/-- The collision of one row with a display. -/
def rowHits (x0 y0 row : Nat) (b : Byte) (p : Pixels) : Bool :=
  (List.range 8).any fun col => spriteBit b col && p.get (wrapCol x0 col) (wrapRow y0 row)

theorem plotRow_spec (x0 y0 row : Nat) (b : Byte) (p : Pixels) (co : Bool) :
    (∀ cx cy, (plotRow x0 y0 row b (p, co)).1.get cx cy =
      (p.get cx cy ^^ (decide (cy = wrapRow y0 row) && rowBit x0 b (List.range 8) cx))) ∧
    (plotRow x0 y0 row b (p, co)).2 = (co || rowHits x0 y0 row b p) :=
  plotCols_spec x0 y0 row b (List.range 8) (fun _ h => List.mem_range.mp h) List.nodup_range p co

/-- The bit a run of sprite rows, the first of number `row`, puts on the pixel (cx, cy). -/
def rowsBit (x0 y0 : Nat) : Nat → List Byte → Fin 64 → Fin 32 → Bool
  | _, [], _, _ => false
  | row, b :: bs, cx, cy =>
    (decide (cy = wrapRow y0 row) && rowBit x0 b (List.range 8) cx) ^^ rowsBit x0 y0 (row + 1) bs cx cy

theorem plotRows_get (x0 y0 : Nat) (bs : List Byte) (row : Nat) (pc : Pixels × Bool) (cx : Fin 64) (cy : Fin 32) :
    (plotRows x0 y0 row bs pc).1.get cx cy = (pc.1.get cx cy ^^ rowsBit x0 y0 row bs cx cy) := by
  induction bs generalizing row pc with
  | nil => simp [plotRows, rowsBit]
  | cons b bs ih => rw [plotRows, ih, (plotRow_spec x0 y0 row b pc.1 pc.2).1, rowsBit, Bool.xor_assoc]

/-- A screen row that no sprite row of the run reaches. -/
theorem rowsBit_none {x0 y0 : Nat} {bs : List Byte} {row : Nat} {cx : Fin 64} {cy : Fin 32}
    (h : ∀ j < bs.length, cy ≠ wrapRow y0 (row + j)) : rowsBit x0 y0 row bs cx cy = false := by
  induction bs generalizing row with
  | nil => rfl
  | cons b bs ih =>
    have h0 := h 0 (by simp)
    rw [rowsBit, ih fun j hj => ?_]
    · rw [Nat.add_zero] at h0; simp [h0]
    · have := h (j + 1) (by simpa using hj)
      rwa [show row + 1 + j = row + (j + 1) by omega]

/-- The screen row of the j-th sprite row holds that row's bits and no other's, at most 32 rows being drawn. -/
theorem rowsBit_row {x0 y0 : Nat} {bs : List Byte} (hl : bs.length ≤ 32) {row j : Nat} (hj : j < bs.length)
    (cx : Fin 64) :
    rowsBit x0 y0 row bs cx (wrapRow y0 (row + j)) = rowBit x0 (bs.getD j 0) (List.range 8) cx := by
  have inj : ∀ {a b : Nat}, a < 32 → b < 32 → wrapRow y0 (row + a) = wrapRow y0 (row + b) → a = b := by
    intro a b ha hb e
    have : (y0 + (row + a)) % 32 = (y0 + (row + b)) % 32 := congrArg Fin.val e
    omega
  induction bs generalizing row j with
  | nil => simp at hj
  | cons b bs ih =>
    simp only [List.length_cons] at hl hj
    rw [rowsBit]
    cases j with
    | zero =>
      rw [rowsBit_none fun k hk e => ?_]
      · simp
      · have := inj (a := 0) (b := k + 1) (by omega) (by omega) (by rw [e]; congr 1; omega)
        omega
    | succ j =>
      have hne : wrapRow y0 (row + (j + 1)) ≠ wrapRow y0 row := fun e => by
        have := inj (a := j + 1) (b := 0) (by omega) (by omega) (by rw [e]; rfl)
        omega
      have := ih (row := row + 1) (j := j) (by omega) (by omega) fun {a b} ha hb e => ?_
      · rw [show row + 1 + j = row + (j + 1) by omega] at this
        simp [hne, this]
      · have : (y0 + (row + 1 + a)) % 32 = (y0 + (row + 1 + b)) % 32 := congrArg Fin.val e
        omega

/-! ## The collision -/

theorem rowHits_iff (x0 y0 row : Nat) (b : Byte) (p : Pixels) :
    rowHits x0 y0 row b p = true ↔
      ∃ cx, rowBit x0 b (List.range 8) cx = true ∧ p.get cx (wrapRow y0 row) = true := by
  simp only [rowHits, rowBit, List.any_eq_true, Bool.and_eq_true, decide_eq_true_eq]
  constructor
  · rintro ⟨c, hc, hb, hp⟩
    exact ⟨wrapCol x0 c, ⟨c, hc, rfl, hb⟩, hp⟩
  · rintro ⟨_, ⟨c, hc, rfl, hb⟩, hp⟩
    exact ⟨c, hc, hb, hp⟩

theorem rowHits_congr {x0 y0 row : Nat} {b : Byte} {p q : Pixels}
    (h : ∀ cx, p.get cx (wrapRow y0 row) = q.get cx (wrapRow y0 row)) :
    rowHits x0 y0 row b p = rowHits x0 y0 row b q := by
  simp only [rowHits, h]

/-- The collision of a run of rows is that of its rows with the display before the run. -/
theorem plotRows_hits (x0 y0 : Nat) (bs : List Byte) (hl : bs.length ≤ 32) (row : Nat) (p : Pixels) (co : Bool) :
    (plotRows x0 y0 row bs (p, co)).2 = true ↔
      co = true ∨ ∃ j, j < bs.length ∧ rowHits x0 y0 (row + j) (bs.getD j 0) p = true := by
  induction bs generalizing row p co with
  | nil => simp [plotRows]
  | cons b bs ih =>
    simp only [List.length_cons] at hl
    obtain ⟨hget, hco⟩ := plotRow_spec x0 y0 row b p co
    have hsame : ∀ j, j < bs.length →
        rowHits x0 y0 (row + 1 + j) (bs.getD j 0) (plotRow x0 y0 row b (p, co)).1 =
          rowHits x0 y0 (row + (j + 1)) ((b :: bs).getD (j + 1) 0) p := by
      intro j hj
      have hne : wrapRow y0 (row + 1 + j) ≠ wrapRow y0 row := fun e => by
        have : (y0 + (row + 1 + j)) % 32 = (y0 + row) % 32 := congrArg Fin.val e
        omega
      rw [show row + (j + 1) = row + 1 + j by omega, List.getD_cons_succ]
      exact rowHits_congr fun cx => by simp [hget, hne]
    rw [plotRows, ih (by omega), hco, Bool.or_eq_true, or_assoc]
    refine or_congr_right ⟨?_, ?_⟩
    · rintro (h | ⟨j, hj, h⟩)
      · exact ⟨0, by simp, by simpa using h⟩
      · exact ⟨j + 1, by simpa using hj, hsame j hj ▸ h⟩
    · rintro ⟨j, hj, h⟩
      cases j with
      | zero => exact .inl (by simpa using h)
      | succ j =>
        have hj : j < bs.length := by simpa using hj
        exact .inr ⟨j, hj, (hsame j hj).symm ▸ h⟩

/-! ## The compositor, by the distance from the sprite's corner -/

/-- The bit that the rows `bs`, drawn at (x0, y0), have at the pixel (cx, cy). -/
def spriteAt (bs : List Byte) (x0 y0 : Nat) (cx : Fin 64) (cy : Fin 32) : Bool :=
  let col := (cx.val + 64 - x0 % 64) % 64
  let row := (cy.val + 32 - y0 % 32) % 32
  decide (col < 8) && decide (row < bs.length) && (bs.getD row 0).getLsbD (7 - col)

theorem rowBit_eq (x0 : Nat) (b : Byte) (cx : Fin 64) :
    rowBit x0 b (List.range 8) cx =
      (decide ((cx.val + 64 - x0 % 64) % 64 < 8) && b.getLsbD (7 - (cx.val + 64 - x0 % 64) % 64)) := by
  rw [Bool.eq_iff_iff, rowBit, List.any_eq_true, Bool.and_eq_true, decide_eq_true_eq]
  have hlt := cx.isLt
  constructor
  · rintro ⟨c, hc, h⟩
    simp only [Bool.and_eq_true, decide_eq_true_eq, spriteBit] at h
    have hc := List.mem_range.mp hc
    have : cx.val = (x0 + c) % 64 := congrArg Fin.val h.1
    have e : (cx.val + 64 - x0 % 64) % 64 = c := by omega
    rw [e]; exact ⟨hc, h.2⟩
  · rintro ⟨h8, hb⟩
    refine ⟨(cx.val + 64 - x0 % 64) % 64, List.mem_range.mpr h8, ?_⟩
    simp only [Bool.and_eq_true, decide_eq_true_eq, spriteBit]
    refine ⟨Fin.ext ?_, hb⟩
    show cx.val = (x0 + (cx.val + 64 - x0 % 64) % 64) % 64
    omega

theorem rowsBit_eq (bs : List Byte) (hl : bs.length ≤ 32) (x0 y0 : Nat) (cx : Fin 64) (cy : Fin 32) :
    rowsBit x0 y0 0 bs cx cy = spriteAt bs x0 y0 cx cy := by
  have hlt := cy.isLt
  have key : cy = wrapRow y0 (0 + (cy.val + 32 - y0 % 32) % 32) :=
    Fin.ext (show cy.val = (y0 + (0 + (cy.val + 32 - y0 % 32) % 32)) % 32 by omega)
  unfold spriteAt
  by_cases h : (cy.val + 32 - y0 % 32) % 32 < bs.length
  · have := rowsBit_row (x0 := x0) (y0 := y0) hl (row := 0) h cx
    rw [← key, rowBit_eq] at this
    simp [this, h]
  · rw [rowsBit_none fun j hj e => ?_]
    · simp [h]
    · have : cy.val = (y0 + (0 + j)) % 32 := congrArg Fin.val e
      omega

/-- A draw toggles exactly the pixels of the sprite's 1 bits. -/
theorem drawSprite_get (p : Pixels) (x0 y0 : Nat) (bs : List Byte) (hl : bs.length ≤ 32) (cx : Fin 64) (cy : Fin 32) :
    (drawSprite p x0 y0 bs).1.get cx cy = (p.get cx cy ^^ spriteAt bs x0 y0 cx cy) := by
  rw [drawSprite, plotRows_get, rowsBit_eq bs hl]

/-- A draw collides exactly when a 1 bit of the sprite meets a lit pixel of the display before the draw. -/
theorem drawSprite_collides (p : Pixels) (x0 y0 : Nat) (bs : List Byte) (hl : bs.length ≤ 32) :
    (drawSprite p x0 y0 bs).2 = true ↔ ∃ cx cy, spriteAt bs x0 y0 cx cy = true ∧ p.get cx cy = true := by
  have h := plotRows_hits x0 y0 bs hl 0 p false
  rw [drawSprite, h]
  simp only [Bool.false_eq_true, false_or, rowHits_iff, ← rowsBit_eq bs hl]
  constructor
  · rintro ⟨j, hj, cx, hb, hp⟩
    exact ⟨cx, wrapRow y0 (0 + j), by rw [rowsBit_row hl hj, hb], hp⟩
  · rintro ⟨cx, cy, hb, hp⟩
    have hlt := cy.isLt
    have key : cy = wrapRow y0 (0 + (cy.val + 32 - y0 % 32) % 32) :=
      Fin.ext (show cy.val = (y0 + (0 + (cy.val + 32 - y0 % 32) % 32)) % 32 by omega)
    have hj : (cy.val + 32 - y0 % 32) % 32 < bs.length := by
      rw [rowsBit_eq bs hl] at hb
      simp only [spriteAt, Bool.and_eq_true, decide_eq_true_eq] at hb
      exact hb.1.2
    refine ⟨_, hj, cx, ?_, by rw [← key]; exact hp⟩
    rw [← rowsBit_row hl hj, ← key]; exact hb

/-- Drawing no rows changes nothing and reports no collision (rule R174). -/
@[simp] theorem drawSprite_nil (p : Pixels) (x0 y0 : Nat) : drawSprite p x0 y0 [] = (p, false) := rfl

end Sys2Proof.Machine
end

