-- ==== Sys2Proof/Laws/Encoding.lean ====
section
/-! SUPPORT. The fields of a word put together in a format, the word rebuilt from its fields, and a format under a
mask of rule R97 (spec/30_encoding.md rules R91, R94, R97). -/

namespace Sys2Proof

/-! ## Concatenation at any widths -/

variable {m n : Nat}

theorem extract_append_high (a : BitVec m) (b : BitVec n) (s k : Nat) :
    (a ++ b).extractLsb' (n + s) k = a.extractLsb' s k := by
  ext i hi
  simp [BitVec.getLsbD_append, Nat.add_assoc]

theorem extract_append_low (a : BitVec m) (b : BitVec n) {s k : Nat} (h : s + k ≤ n) :
    (a ++ b).extractLsb' s k = b.extractLsb' s k := by
  ext i hi
  simp [BitVec.getLsbD_append, show s + i < n by omega]

theorem extract_all (a : BitVec m) : a.extractLsb' 0 m = a := by
  ext i hi
  simp

theorem append_extract (w : BitVec (m + n)) : (w.extractLsb' n m ++ w.extractLsb' 0 n : BitVec (m + n)) = w := by
  ext i hi
  simp only [BitVec.getElem_append, BitVec.getElem_extractLsb']
  split
  · simp [BitVec.getLsbD_eq_getElem hi]
  · rw [show n + (i - n) = i by omega, BitVec.getLsbD_eq_getElem hi]

/-- A field of a field is a field. -/
theorem extract_extract (w : BitVec m) (s k s' k' : Nat) (h : s' + k' ≤ k) :
    (w.extractLsb' s k).extractLsb' s' k' = w.extractLsb' (s + s') k' := by
  ext i hi
  simp [show s' + i < k by omega, Nat.add_assoc]

theorem append_and (a c : BitVec m) (b d : BitVec n) : (a ++ b) &&& (c ++ d) = (a &&& c) ++ (b &&& d) := by
  ext i hi
  simp only [BitVec.getElem_and, BitVec.getElem_append]
  split <;> simp

/-! ## The fields of a format -/

section
variable (op x y k : Nibble) (kk : Byte) (nnn : Addr12)

@[simp] theorem fieldOp_formatA : fieldOp (formatA op nnn) = op :=
  (extract_append_high op nnn 0 4).trans (extract_all op)

@[simp] theorem fieldNnn_formatA : fieldNnn (formatA op nnn) = nnn :=
  (extract_append_low op nnn (Nat.le_refl 12)).trans (extract_all nnn)

@[simp] theorem fieldOp_formatXK : fieldOp (formatXK op x kk) = op :=
  (extract_append_high (op ++ x : BitVec (4 + 4)) kk 4 4).trans
    ((extract_append_high op x 0 4).trans (extract_all op))

@[simp] theorem fieldX_formatXK : fieldX (formatXK op x kk) = x :=
  (extract_append_high (op ++ x : BitVec (4 + 4)) kk 0 4).trans
    ((extract_append_low op x (Nat.le_refl 4)).trans (extract_all x))

@[simp] theorem fieldKk_formatXK : fieldKk (formatXK op x kk) = kk :=
  (extract_append_low (op ++ x : BitVec (4 + 4)) kk (Nat.le_refl 8)).trans (extract_all kk)

@[simp] theorem fieldOp_formatXYN : fieldOp (formatXYN op x y k) = op :=
  fieldOp_formatXK op x (y ++ k : BitVec (4 + 4))

@[simp] theorem fieldX_formatXYN : fieldX (formatXYN op x y k) = x :=
  fieldX_formatXK op x (y ++ k : BitVec (4 + 4))

@[simp] theorem fieldY_formatXYN : fieldY (formatXYN op x y k) = y :=
  (extract_append_low (op ++ x : BitVec (4 + 4)) (y ++ k : BitVec (4 + 4)) (s := 4) (k := 4) (Nat.le_refl 8)).trans
    ((extract_append_high y k 0 4).trans (extract_all y))

@[simp] theorem fieldN_formatXYN : fieldN (formatXYN op x y k) = k :=
  (extract_append_low (op ++ x : BitVec (4 + 4)) (y ++ k : BitVec (4 + 4)) (s := 0) (k := 4) (by decide)).trans
    ((extract_append_low y k (Nat.le_refl 4)).trans (extract_all k))

end

/-! ## The word rebuilt from its fields -/

theorem formatA_fields (w : Word) : formatA (fieldOp w) (fieldNnn w) = w := append_extract (m := 4) (n := 12) w

theorem formatXK_fields (w : Word) : formatXK (fieldOp w) (fieldX w) (fieldKk w) = w := by
  have hi : (fieldOp w ++ fieldX w : BitVec (4 + 4)) = w.extractLsb' 8 8 := by
    have h := append_extract (m := 4) (n := 4) (w.extractLsb' 8 8)
    rwa [extract_extract _ _ _ _ _ (by decide), extract_extract _ _ _ _ _ (by decide)] at h
  show ((fieldOp w ++ fieldX w : BitVec (4 + 4)) ++ fieldKk w : BitVec (4 + 4 + 8)) = w
  rw [hi]
  exact append_extract (m := 8) (n := 8) w

theorem fieldKk_eq (w : Word) : (fieldY w ++ fieldN w : BitVec (4 + 4)) = fieldKk w := by
  have h := append_extract (m := 4) (n := 4) (w.extractLsb' 0 8)
  rwa [extract_extract _ _ _ _ _ (by decide), extract_extract _ _ _ _ _ (by decide)] at h

theorem formatXYN_fields (w : Word) : formatXYN (fieldOp w) (fieldX w) (fieldY w) (fieldN w) = w := by
  show formatXK (fieldOp w) (fieldX w) (fieldY w ++ fieldN w : BitVec (4 + 4)) = w
  rw [fieldKk_eq, formatXK_fields]

/-! ## A format under a mask -/

theorem formatA_and (a c : Nibble) (b d : Addr12) : formatA a b &&& formatA c d = formatA (a &&& c) (b &&& d) :=
  append_and a c b d

theorem formatXK_and (a b c d : Nibble) (e f : Byte) :
    formatXK a b e &&& formatXK c d f = formatXK (a &&& c) (b &&& d) (e &&& f) := by
  refine (append_and (a ++ b : BitVec (4 + 4)) (c ++ d) e f).trans ?_
  rw [append_and]
  rfl

theorem formatXYN_and (a b c d e f g h : Nibble) :
    formatXYN a b c d &&& formatXYN e f g h = formatXYN (a &&& e) (b &&& f) (c &&& g) (d &&& h) := by
  refine (formatXK_and a b e f (c ++ d : BitVec (4 + 4)) (g ++ h : BitVec (4 + 4))).trans ?_
  rw [append_and]
  rfl

end Sys2Proof
end

