-- ==== Sys2Proof/Laws/Frames.lean ====
section
/-! SUPPORT. How frames compose, and that every meaning answers a next state. -/

namespace Sys2Proof.Machine

@[simp] theorem Part.Same.rfl' (p : Part) (s : State) : p.Same s s := by cases p <;> simp [Part.Same]

theorem Part.Same.trans {p : Part} {s t u : State} (h : p.Same s t) (h' : p.Same t u) : p.Same s u := by
  cases p
  case v | mem | key => exact fun a => (h' a).trans (h a)
  case pix => exact fun a b => (h' a b).trans (h a b)
  all_goals exact Eq.trans h' h

/-- A frame may be widened. -/
theorem OnlyChanges.mono {ps qs : List Part} {s t : State} (h : OnlyChanges ps s t) (hs : ∀ p ∈ ps, p ∈ qs) :
    OnlyChanges qs s t := fun p hp => h p fun hq => hp (hs p hq)

/-- Frames compose. -/
theorem OnlyChanges.trans {ps qs : List Part} {s t u : State} (h : OnlyChanges ps s t) (h' : OnlyChanges qs t u) :
    OnlyChanges (ps ++ qs) s u := fun p hp =>
  (h p fun hq => hp (List.mem_append_left _ hq)).trans (h' p fun hq => hp (List.mem_append_right _ hq))

/-- PC alone changes in the default advance. -/
theorem advancePc_onlyChanges (s : State) : OnlyChanges [.pc] s s.advancePc := by
  intro p hp
  cases p <;> simp_all [Part.Same]

end Sys2Proof.Machine
end

