-- ==== Sys2Proof/Laws/PerInstr.lean ====
section
/-! SUPPORT. One law per instruction: the word an instruction is encoded as is legal, that is, some row of the decode
table of spec/30_encoding.md rule R97 selects it. -/

namespace Sys2Proof.Laws.EncodedLegal

/-- The encoding of the instruction matches a row of rule R97. -/
def Statement (i : Instr) : Prop := legalWord (encode i) = true

/-- A word under a row's mask that is the row's pattern is legal. -/
theorem legal_of_row {w : Word} (mask pattern : Word) (hr : OpcodeRow.mk mask pattern ∈ opcodeRows)
    (h : w &&& mask = pattern) : legalWord w = true :=
  List.any_eq_true.mpr ⟨_, hr, by simp [OpcodeRow.selects, h]⟩

theorem nibble_and_ones (a : Nibble) : a &&& 15#4 = a := BitVec.and_allOnes

theorem byte_and_ones (a : Byte) : a &&& 255#8 = a := BitVec.and_allOnes

/-- Format A under the mask 0xF000. -/
theorem legal_formatA (op : Nibble) (nnn : Addr12) (hr : OpcodeRow.mk 0xF000 (formatA op 0) ∈ opcodeRows) :
    legalWord (formatA op nnn) = true := by
  refine legal_of_row _ _ hr ?_
  rw [show (0xF000 : Word) = formatA 0xF 0 from rfl, formatA_and]
  simp [nibble_and_ones]

/-- Format XK under the mask 0xF000. -/
theorem legal_formatXK (op x : Nibble) (kk : Byte) (hr : OpcodeRow.mk 0xF000 (formatXK op 0 0) ∈ opcodeRows) :
    legalWord (formatXK op x kk) = true := by
  refine legal_of_row _ _ hr ?_
  rw [show (0xF000 : Word) = formatXK 0xF 0 0 from rfl, formatXK_and]
  simp [nibble_and_ones]

/-- Format XS under the mask 0xF0FF. -/
theorem legal_formatXS (op x : Nibble) (low : Byte) (hr : OpcodeRow.mk 0xF0FF (formatXK op 0 low) ∈ opcodeRows) :
    legalWord (formatXK op x low) = true := by
  refine legal_of_row _ _ hr ?_
  rw [show (0xF0FF : Word) = formatXK 0xF 0 0xFF from rfl, formatXK_and]
  simp [nibble_and_ones, byte_and_ones]

/-- Format XY under the mask 0xF00F. -/
theorem legal_formatXY (op x y n : Nibble) (hr : OpcodeRow.mk 0xF00F (formatXYN op 0 0 n) ∈ opcodeRows) :
    legalWord (formatXYN op x y n) = true := by
  refine legal_of_row _ _ hr ?_
  rw [show (0xF00F : Word) = formatXYN 0xF 0 0 0xF from rfl, formatXYN_and]
  simp [nibble_and_ones]

theorem cls : Statement .cls := by unfold Statement; decide
theorem ret : Statement .ret := by unfold Statement; decide
theorem jp (nnn : Addr12) : Statement (.jp nnn) := legal_formatA 0x1 nnn (by decide)
theorem call (nnn : Addr12) : Statement (.call nnn) := legal_formatA 0x2 nnn (by decide)
theorem seImm (x : Nibble) (kk : Byte) : Statement (.seImm x kk) := legal_formatXK 0x3 x kk (by decide)
theorem sneImm (x : Nibble) (kk : Byte) : Statement (.sneImm x kk) := legal_formatXK 0x4 x kk (by decide)
theorem seReg (x y : Nibble) : Statement (.seReg x y) := legal_formatXY 0x5 x y 0x0 (by decide)
theorem ldImm (x : Nibble) (kk : Byte) : Statement (.ldImm x kk) := legal_formatXK 0x6 x kk (by decide)
theorem addImm (x : Nibble) (kk : Byte) : Statement (.addImm x kk) := legal_formatXK 0x7 x kk (by decide)
theorem ldReg (x y : Nibble) : Statement (.ldReg x y) := legal_formatXY 0x8 x y 0x0 (by decide)
theorem orReg (x y : Nibble) : Statement (.orReg x y) := legal_formatXY 0x8 x y 0x1 (by decide)
theorem andReg (x y : Nibble) : Statement (.andReg x y) := legal_formatXY 0x8 x y 0x2 (by decide)
theorem xorReg (x y : Nibble) : Statement (.xorReg x y) := legal_formatXY 0x8 x y 0x3 (by decide)
theorem addReg (x y : Nibble) : Statement (.addReg x y) := legal_formatXY 0x8 x y 0x4 (by decide)
theorem subReg (x y : Nibble) : Statement (.subReg x y) := legal_formatXY 0x8 x y 0x5 (by decide)
theorem shr (x y : Nibble) : Statement (.shr x y) := legal_formatXY 0x8 x y 0x6 (by decide)
theorem subnReg (x y : Nibble) : Statement (.subnReg x y) := legal_formatXY 0x8 x y 0x7 (by decide)
theorem shl (x y : Nibble) : Statement (.shl x y) := legal_formatXY 0x8 x y 0xE (by decide)
theorem sneReg (x y : Nibble) : Statement (.sneReg x y) := legal_formatXY 0x9 x y 0x0 (by decide)
theorem ldI (nnn : Addr12) : Statement (.ldI nnn) := legal_formatA 0xA nnn (by decide)
theorem jpV0 (nnn : Addr12) : Statement (.jpV0 nnn) := legal_formatA 0xB nnn (by decide)
theorem rnd (x : Nibble) (kk : Byte) : Statement (.rnd x kk) := legal_formatXK 0xC x kk (by decide)
theorem drw (x y n : Nibble) : Statement (.drw x y n) := legal_formatXK 0xD x (y ++ n : BitVec (4 + 4)) (by decide)
theorem skp (x : Nibble) : Statement (.skp x) := legal_formatXS 0xE x 0x9E (by decide)
theorem sknp (x : Nibble) : Statement (.sknp x) := legal_formatXS 0xE x 0xA1 (by decide)
theorem ldVxDt (x : Nibble) : Statement (.ldVxDt x) := legal_formatXS 0xF x 0x07 (by decide)
theorem ldVxK (x : Nibble) : Statement (.ldVxK x) := legal_formatXS 0xF x 0x0A (by decide)
theorem ldDtVx (x : Nibble) : Statement (.ldDtVx x) := legal_formatXS 0xF x 0x15 (by decide)
theorem ldStVx (x : Nibble) : Statement (.ldStVx x) := legal_formatXS 0xF x 0x18 (by decide)
theorem addIVx (x : Nibble) : Statement (.addIVx x) := legal_formatXS 0xF x 0x1E (by decide)
theorem ldFVx (x : Nibble) : Statement (.ldFVx x) := legal_formatXS 0xF x 0x29 (by decide)
theorem ldBVx (x : Nibble) : Statement (.ldBVx x) := legal_formatXS 0xF x 0x33 (by decide)
theorem ldMemVx (x : Nibble) : Statement (.ldMemVx x) := legal_formatXS 0xF x 0x55 (by decide)
theorem ldVxMem (x : Nibble) : Statement (.ldVxMem x) := legal_formatXS 0xF x 0x65 (by decide)

end Sys2Proof.Laws.EncodedLegal
end

