-- ==== Sys2Proof/Tests/Slice0.lean ====
section
/-! SUPPORT. The model's own tests and the witnesses of its statements. Every expected value is from a vector of
spec/95_test_vectors.md, named in the docstring, or is read off the rule named there. -/

namespace Sys2Proof.Tests

open Sys2Proof.Machine

/-! ## Decoding: a word written bit by bit from the formats and patterns of spec/30_encoding.md rules R94, R97 -/

theorem test_decode_cls : decodeWord 0b0000_0000_1110_0000 = some .cls := by decide
theorem test_decode_ret : decodeWord 0b0000_0000_1110_1110 = some .ret := by decide
theorem test_decode_jp : decodeWord 0b0001_0010_0011_0100 = some (.jp 0x234) := by decide
theorem test_decode_call : decodeWord 0b0010_0011_0001_0010 = some (.call 0x312) := by decide
theorem test_decode_seImm : decodeWord 0b0011_0011_0100_0010 = some (.seImm 3 0x42) := by decide
theorem test_decode_sneImm : decodeWord 0b0100_0011_0100_0010 = some (.sneImm 3 0x42) := by decide
theorem test_decode_seReg : decodeWord 0b0101_0001_0010_0000 = some (.seReg 1 2) := by decide
theorem test_decode_ldImm : decodeWord 0b0110_1010_0000_0101 = some (.ldImm 0xA 0x05) := by decide
theorem test_decode_addImm : decodeWord 0b0111_0001_1111_1110 = some (.addImm 1 0xFE) := by decide
theorem test_decode_ldReg : decodeWord 0b1000_0001_0010_0000 = some (.ldReg 1 2) := by decide
theorem test_decode_orReg : decodeWord 0b1000_0001_0010_0001 = some (.orReg 1 2) := by decide
theorem test_decode_andReg : decodeWord 0b1000_0001_0010_0010 = some (.andReg 1 2) := by decide
theorem test_decode_xorReg : decodeWord 0b1000_0001_0010_0011 = some (.xorReg 1 2) := by decide
theorem test_decode_addReg : decodeWord 0b1000_0001_0010_0100 = some (.addReg 1 2) := by decide
theorem test_decode_subReg : decodeWord 0b1000_0001_0010_0101 = some (.subReg 1 2) := by decide
theorem test_decode_shr : decodeWord 0b1000_0001_0010_0110 = some (.shr 1 2) := by decide
theorem test_decode_subnReg : decodeWord 0b1000_0001_0010_0111 = some (.subnReg 1 2) := by decide
theorem test_decode_shl : decodeWord 0b1000_0001_0010_1110 = some (.shl 1 2) := by decide
theorem test_decode_sneReg : decodeWord 0b1001_0001_0010_0000 = some (.sneReg 1 2) := by decide
theorem test_decode_ldI : decodeWord 0b1010_0010_1111_0000 = some (.ldI 0x2F0) := by decide
theorem test_decode_jpV0 : decodeWord 0b1011_0011_0000_0001 = some (.jpV0 0x301) := by decide
theorem test_decode_rnd : decodeWord 0b1100_0011_0000_1111 = some (.rnd 3 0x0F) := by decide
theorem test_decode_drw : decodeWord 0b1101_0001_0010_0101 = some (.drw 1 2 5) := by decide
theorem test_decode_skp : decodeWord 0b1110_0101_1001_1110 = some (.skp 5) := by decide
theorem test_decode_sknp : decodeWord 0b1110_0101_1010_0001 = some (.sknp 5) := by decide
theorem test_decode_ldVxDt : decodeWord 0b1111_0011_0000_0111 = some (.ldVxDt 3) := by decide
theorem test_decode_ldVxK : decodeWord 0b1111_0101_0000_1010 = some (.ldVxK 5) := by decide
theorem test_decode_ldDtVx : decodeWord 0b1111_0011_0001_0101 = some (.ldDtVx 3) := by decide
theorem test_decode_ldStVx : decodeWord 0b1111_0011_0001_1000 = some (.ldStVx 3) := by decide
theorem test_decode_addIVx : decodeWord 0b1111_0001_0001_1110 = some (.addIVx 1) := by decide
theorem test_decode_ldFVx : decodeWord 0b1111_1010_0010_1001 = some (.ldFVx 0xA) := by decide
theorem test_decode_ldBVx : decodeWord 0b1111_0001_0011_0011 = some (.ldBVx 1) := by decide
theorem test_decode_ldMemVx : decodeWord 0b1111_0010_0101_0101 = some (.ldMemVx 2) := by decide
theorem test_decode_ldVxMem : decodeWord 0b1111_0010_0110_0101 = some (.ldVxMem 2) := by decide

/-- Rule R90: two bytes are taken, the rest is given back, and one byte alone is no instruction. -/
theorem test_decode_bytes :
    decode [0x6A, 0x05, 0xFA] = .ok (.ldImm 0xA 0x05, [0xFA]) ∧ decode [0x6A] = .error .truncated := by decide

/-! ## Well-formedness: what the checks refuse -/

/-- One word for each line of the table of rule R99 (X4 to X10, K9, A55): the table of rule R97 does not hold it
and the decoder rejects it. -/
theorem test_illegal_words_refused : ([0x0000, 0x0123, 0x00E1, 0x5121, 0x8128, 0x812F, 0x9121, 0xE19F, 0xF1FF].all
    fun w => !legalWord w && (decodeWord w).isNone) = true := by decide +kernel

/-- P6(f): an image of 3585 bytes is refused and then there is no state. -/
theorem test_oversize_program_refused : programFits (List.replicate 3585 0) = false := by
  rw [programFits, List.length_replicate]; decide

/-- P6(f): an image of 3584 bytes is accepted. -/
theorem test_largest_program_fits : programFits (List.replicate 3584 0) = true := by
  rw [programFits, List.length_replicate]; decide

/-! ## One step -/

/-- The reset state with the listed registers set. -/
def start (regs : List (Nibble × Byte)) : State := regs.foldl (fun s p => s.setV p.1 p.2) State.reset

/-- The state after one step that runs the word from `s`. -/
def after (s : State) (w : Nat) : State :=
  match step (s.withFetchWord 16 w) with
  | .next t => t
  | .fault _ => s
  | .refused _ => s

/-- The state after one move. -/
def afterMove (s : State) (m : Move) : State :=
  match applyMove s m with
  | .next t => t
  | .fault _ => s
  | .refused _ => s

/-- The state with bytes stored at an address. -/
def poke (s : State) (a : Nat) (bs : List Byte) : State := s.setMem (s.mem.load a bs)

/-- The state with `n` return addresses on the stack, the lower ones 0x0204 and the top one `top`. -/
def deep (n : Fin 17) (top : Word) : State :=
  { State.reset with sp := n, stack := (Vector.replicate 16 0x0204).setIfInBounds (n.val - 1) top }

/-- The state with one pixel lit. -/
def lit (cx : Fin 64) (cy : Fin 32) : State := State.reset.setPix (State.reset.pix.put cx cy true)

/-- A core parked by F50A at 0x200 (T7). -/
def parked : State := after State.reset 0xF50A

/-- F5: the sixteenth push fills the stack. -/
theorem test_call_pushes :
    (after (deep 15 0x0ABC) 0x2ABC).pc = 0x0ABC ∧ (after (deep 15 0x0ABC) 0x2ABC).sp = 16 ∧
    (after (deep 15 0x0ABC) 0x2ABC).stack[15] = 0x0202 := by decide

/-- F6. -/
theorem test_call_overflow :
    (after (deep 16 0x0ABC) 0x2ABC).fault = some (.stackFault .overflow) := by decide

/-- F7. -/
theorem test_ret_pops :
    (after (deep 2 0x0ABC) 0x00EE).pc = 0x0ABC ∧ (after (deep 2 0x0ABC) 0x00EE).sp = 1 ∧
    (after (deep 2 0x0ABC) 0x00EE).stack[0] = 0x0204 := by decide

/-- F8. -/
theorem test_ret_underflow :
    (after State.reset 0x00EE).fault = some (.stackFault .underflow) := by decide

/-- F3, S8. -/
theorem test_jp_odd_target :
    (after State.reset 0x1201).pc = 0x0201 ∧ (after State.reset 0x1234).pc = 0x0234 := by decide

/-- F1: the state with the word in place does not change. -/
theorem test_jp_to_self :
    after State.reset 0x1200 = State.reset.withFetchWord 16 0x1200 := by decide

/-- F9, F11. -/
theorem test_jpV0_adds :
    (after (start [(0, 4)]) 0xB300).pc = 0x0304 ∧ (after (start [(3, 0x77)]) 0xB300).pc = 0x0300 := by decide

/-- F10. -/
theorem test_jpV0_sixteen_bits :
    (after (start [(0, 0xFF)]) 0xBFFF).pc = 0x10FE := by decide

/-- K1, K2, K3. -/
theorem test_seImm :
    (after (start [(3, 0x42)]) 0x3342).pc = 0x0204 ∧ (after (start [(3, 0x41)]) 0x3342).pc = 0x0202 ∧
    (after (start [(0xF, 1)]) 0x3F01).pc = 0x0204 := by decide

/-- K4, K5. -/
theorem test_sneImm :
    (after (start [(3, 0x42)]) 0x4342).pc = 0x0202 ∧ (after (start [(3, 0x41)]) 0x4342).pc = 0x0204 := by decide

/-- K6, K7, K8. -/
theorem test_seReg :
    (after (start [(1, 7), (2, 7)]) 0x5120).pc = 0x0204 ∧ (after (start [(1, 7), (2, 8)]) 0x5120).pc = 0x0202 ∧
    (after State.reset 0x5AA0).pc = 0x0204 := by decide

/-- K10, K11, K12. -/
theorem test_sneReg :
    (after (start [(1, 7), (2, 8)]) 0x9120).pc = 0x0204 ∧ (after (start [(1, 7), (2, 7)]) 0x9120).pc = 0x0202 ∧
    (after State.reset 0x9AA0).pc = 0x0202 := by decide

/-- K13, K14. -/
theorem test_skp :
    (after ((start [(5, 10)]).setKey 10 true) 0xE59E).pc = 0x0204 ∧ (after (start [(5, 10)]) 0xE59E).pc = 0x0202 :=
    by decide

/-- K17. -/
theorem test_skp_fault :
    (after (start [(5, 0x10)]) 0xE59E).fault = some (.keyIndexFault 0x10) := by decide

/-- K15, K16. -/
theorem test_sknp :
    (after (start [(5, 10)]) 0xE5A1).pc = 0x0204 ∧ (after ((start [(5, 10)]).setKey 10 true) 0xE5A1).pc = 0x0202 :=
    by decide

/-- K18. -/
theorem test_sknp_fault :
    (after (start [(5, 0xFF)]) 0xE5A1).fault = some (.keyIndexFault 0xFF) := by decide

/-- A1, A2. -/
theorem test_ldImm :
    (after State.reset 0x6A05).getV 0xA = 0x05 ∧ (after State.reset 0x6F77).getV 0xF = 0x77 := by decide

/-- A3, A5. -/
theorem test_addImm :
    (after (start [(1, 0xFF), (0xF, 0x55)]) 0x7102).getV 1 = 0x01 ∧
    (after (start [(1, 0xFF), (0xF, 0x55)]) 0x7102).getV 0xF = 0x55 ∧
    (after (start [(1, 0x05)]) 0x71FF).getV 1 = 0x04 := by decide

/-- A6. -/
theorem test_ldReg :
    (after (start [(2, 0x33)]) 0x8120).getV 1 = 0x33 ∧ (after (start [(2, 0x33)]) 0x8120).getV 2 = 0x33 := by decide

/-- A7. -/
theorem test_orReg :
    (after (start [(1, 0xF0), (2, 0x0F), (0xF, 0x55)]) 0x8121).getV 1 = 0xFF ∧
    (after (start [(1, 0xF0), (2, 0x0F), (0xF, 0x55)]) 0x8121).getV 0xF = 0x55 := by decide

/-- A8. -/
theorem test_andReg :
    (after (start [(1, 0xF3), (2, 0x3F), (0xF, 0x55)]) 0x8122).getV 1 = 0x33 ∧
    (after (start [(1, 0xF3), (2, 0x3F), (0xF, 0x55)]) 0x8122).getV 0xF = 0x55 := by decide

/-- A9, A10. -/
theorem test_xorReg :
    (after (start [(1, 0xFF), (2, 0x0F), (0xF, 0x55)]) 0x8123).getV 1 = 0xF0 ∧
    (after (start [(1, 0xFF), (2, 0x0F), (0xF, 0x55)]) 0x8123).getV 0xF = 0x55 ∧
    (after (start [(1, 0xA5)]) 0x8113).getV 1 = 0x00 := by decide

/-- A11, A12. -/
theorem test_addReg :
    (after (start [(1, 0xFF), (2, 0x01)]) 0x8124).getV 1 = 0x00 ∧
    (after (start [(1, 0xFF), (2, 0x01)]) 0x8124).getV 0xF = 0x01 ∧
    (after (start [(1, 0x80), (2, 0x7F)]) 0x8124).getV 1 = 0xFF ∧
    (after (start [(1, 0x80), (2, 0x7F)]) 0x8124).getV 0xF = 0x00 := by decide

/-- A16, A17, A18. -/
theorem test_addReg_flag_register :
    (after (start [(0xF, 0xF0), (1, 0x20)]) 0x8F14).getV 0xF = 0x01 ∧
    (after (start [(0xF, 0x10), (1, 0x20)]) 0x8F14).getV 0xF = 0x00 ∧
    (after (start [(1, 0xFF), (0xF, 0x02)]) 0x81F4).getV 1 = 0x01 ∧
    (after (start [(1, 0xFF), (0xF, 0x02)]) 0x81F4).getV 0xF = 0x01 := by decide

/-- A20, A21, A22. -/
theorem test_subReg :
    (after (start [(1, 0x00), (2, 0x01)]) 0x8125).getV 1 = 0xFF ∧
    (after (start [(1, 0x00), (2, 0x01)]) 0x8125).getV 0xF = 0x00 ∧
    (after (start [(1, 0x05), (2, 0x03)]) 0x8125).getV 1 = 0x02 ∧
    (after (start [(1, 0x05), (2, 0x03)]) 0x8125).getV 0xF = 0x01 ∧
    (after (start [(1, 0x07), (2, 0x07), (0xF, 0x01)]) 0x8125).getV 1 = 0x00 ∧
    (after (start [(1, 0x07), (2, 0x07), (0xF, 0x01)]) 0x8125).getV 0xF = 0x00 := by decide

/-- A25, A27, A29. -/
theorem test_subReg_flag_register :
    (after (start [(0xF, 0x09), (1, 0x03)]) 0x8F15).getV 0xF = 0x06 ∧
    (after (start [(1, 0x09), (0xF, 0x03)]) 0x81F5).getV 1 = 0x06 ∧
    (after (start [(1, 0x09), (0xF, 0x03)]) 0x81F5).getV 0xF = 0x01 ∧
    (after (start [(0xF, 0x44)]) 0x8FF5).getV 0xF = 0x00 := by decide

/-- A30, A31, A34. -/
theorem test_shr :
    (after (start [(1, 0x12)]) 0x8126).getV 1 = 0x09 ∧ (after (start [(1, 0x12)]) 0x8126).getV 0xF = 0x00 ∧
    (after (start [(1, 0xFF)]) 0x8126).getV 1 = 0x7F ∧ (after (start [(1, 0xFF)]) 0x8126).getV 0xF = 0x01 ∧
    (after (start [(1, 0x80), (2, 0xFF)]) 0x8126).getV 1 = 0x40 ∧
    (after (start [(1, 0x80), (2, 0xFF)]) 0x8126).getV 0xF = 0x00 ∧
    (after (start [(1, 0x80), (2, 0xFF)]) 0x8126).getV 2 = 0xFF := by decide

/-- A35, A36. -/
theorem test_shr_flag_register :
    (after (start [(0xF, 0x07)]) 0x8F06).getV 0xF = 0x03 ∧ (after (start [(0xF, 0x01)]) 0x8F06).getV 0xF = 0x00 :=
    by decide

/-- A37, A38, A39. -/
theorem test_subnReg :
    (after (start [(1, 0x01), (2, 0x05)]) 0x8127).getV 1 = 0x04 ∧
    (after (start [(1, 0x01), (2, 0x05)]) 0x8127).getV 0xF = 0x01 ∧
    (after (start [(1, 0x05), (2, 0x01)]) 0x8127).getV 1 = 0xFC ∧
    (after (start [(1, 0x05), (2, 0x01)]) 0x8127).getV 0xF = 0x00 ∧
    (after (start [(1, 0x07), (2, 0x07), (0xF, 0x01)]) 0x8127).getV 1 = 0x00 ∧
    (after (start [(1, 0x07), (2, 0x07), (0xF, 0x01)]) 0x8127).getV 0xF = 0x00 := by decide

/-- A41, A43. -/
theorem test_subnReg_flag_register :
    (after (start [(0xF, 0x03), (1, 0x09)]) 0x8F17).getV 0xF = 0x06 ∧
    (after (start [(1, 0x03), (0xF, 0x09)]) 0x81F7).getV 1 = 0x06 ∧
    (after (start [(1, 0x03), (0xF, 0x09)]) 0x81F7).getV 0xF = 0x01 := by decide

/-- A45, A47, A49. -/
theorem test_shl :
    (after (start [(1, 0x81)]) 0x812E).getV 1 = 0x02 ∧ (after (start [(1, 0x81)]) 0x812E).getV 0xF = 0x01 ∧
    (after (start [(1, 0x7F)]) 0x812E).getV 1 = 0xFE ∧ (after (start [(1, 0x7F)]) 0x812E).getV 0xF = 0x00 ∧
    (after (start [(1, 0x40), (2, 0xFF)]) 0x812E).getV 1 = 0x80 ∧
    (after (start [(1, 0x40), (2, 0xFF)]) 0x812E).getV 0xF = 0x00 ∧
    (after (start [(1, 0x40), (2, 0xFF)]) 0x812E).getV 2 = 0xFF := by decide

/-- A50, A51. -/
theorem test_shl_flag_register :
    (after (start [(0xF, 0x81)]) 0x8F0E).getV 0xF = 0x02 ∧ (after (start [(0xF, 0x01)]) 0x8F0E).getV 0xF = 0x02 :=
    by decide

/-- A52, A54: the byte is the input of the step. -/
theorem test_rnd_mask :
    (afterMove (State.reset.withFetchWord 16 0xC30F) (.step 0xA7)).getV 3 = 0x07 ∧
    (afterMove (State.reset.withFetchWord 16 0xC3FF) (.step 0x5A)).getV 3 = 0x5A := by decide

/-- A53: with mask 0 the register is 0 whatever byte is drawn. -/
theorem test_rnd_mask_zero :
    (after State.reset 0xC300).getV 3 = 0 :=
  (BitVec.and_zero : Config.randomByte 0 &&& 0#8 = 0#8)

/-- M1. -/
theorem test_ldI :
    (after (State.reset.setI 0xFFFF) 0xA2F0).i = 0x02F0 := by decide

/-- M2. -/
theorem test_addIVx :
    (after ((start [(1, 5), (0xF, 0x55)]).setI 0x0FFE) 0xF11E).i = 0x1003 ∧
    (after ((start [(1, 5), (0xF, 0x55)]).setI 0x0FFE) 0xF11E).getV 0xF = 0x55 := by decide

/-- M3. -/
theorem test_addIVx_wraps :
    (after ((start [(1, 2)]).setI 0xFFFF) 0xF11E).i = 0x0001 := by decide

/-- M4, M6, M7. -/
theorem test_ldFVx :
    (after (start [(0xA, 5)]) 0xFA29).i = 0x0019 ∧ (after (start [(0, 0x10)]) 0xF029).i = 0x0050 ∧
    (after (start [(0, 0xFF)]) 0xF029).i = 0x04FB := by decide

/-- M8, M15 with M16: the last three bytes of memory. -/
theorem test_ldBVx :
    (after ((start [(1, 0x7B)]).setI 0x300) 0xF133).mem = [(0x200, 0xF1), (0x201, 0x33), (0x300, 1), (0x301, 2), (0x302, 3)] ∧
    (after ((start [(1, 0xFF)]).setI 0xFFD) 0xF133).mem = [(0x200, 0xF1), (0x201, 0x33), (0xFFD, 2), (0xFFE, 5), (0xFFF, 5)] :=
    by decide

/-- M17. -/
theorem test_ldBVx_fault :
    (after (State.reset.setI 0xFFE) 0xF133).fault = some (.addressingFault 0x1000) := by decide

/-- M18, M19. -/
theorem test_ldMemVx :
    (after ((start [(0, 0x11), (1, 0x22), (2, 0x33), (3, 0x44)]).setI 0x300) 0xF255).mem =
      [(0x200, 0xF2), (0x201, 0x55), (0x300, 0x11), (0x301, 0x22), (0x302, 0x33)] ∧
    (after ((start [(0, 0x9A)]).setI 0xFFF) 0xF055).mem.read 0xFFF = 0x9A := by decide

/-- M21, M22. -/
theorem test_ldMemVx_fault :
    (after (State.reset.setI 0xFF1) 0xFF55).fault = some (.addressingFault 0x1000) ∧
    (after (State.reset.setI 0x1000) 0xF155).fault = some (.addressingFault 0x1000) := by decide

/-- M23. -/
theorem test_ldVxMem :
    (after (poke ((start [(3, 0x44)]).setI 0x300) 0x300 [0xAA, 0xBB, 0xCC, 0xDD]) 0xF265).v =
      #v[0xAA, 0xBB, 0xCC, 0x44, 0, 0, 0, 0, 0, 0, 0, 0, 0, 0, 0, 0] ∧
    (after (poke ((start [(3, 0x44)]).setI 0x300) 0x300 [0xAA, 0xBB, 0xCC, 0xDD]) 0xF265).i = 0x300 := by decide

/-- M25. -/
theorem test_ldVxMem_fault :
    (after (State.reset.setI 0xFFF) 0xF165).fault = some (.addressingFault 0x1000) := by decide

/-- W14. -/
theorem test_cls :
    (after ((lit 5 5).setV 0xF 0x55) 0x00E0).pix = State.reset.pix ∧ (after ((lit 5 5).setV 0xF 0x55) 0x00E0).getV 0xF = 0x55 :=
    by decide

/-- W3: both edges. -/
theorem test_drw_wraps :
    (([(60, 31), (3, 31), (60, 0), (61, 0), (2, 0), (3, 0), (61, 31), (62, 0), (4, 31), (60, 1)] : List (Fin 64 × Fin 32)).map
      fun p => (after (poke ((start [(1, 0x3C), (2, 0x1F)]).setI 0x300) 0x300 [0x81, 0xC3]) 0xD122).pix.get p.1 p.2) =
      [true, true, true, true, true, true, false, false, false, false] := by decide +kernel

/-- W7, W8, W13. -/
theorem test_drw_collides :
    (after (poke ((lit 5 5).setV 1 5 |>.setI 0x300) 0x300 [0x80]) 0xD111).getV 0xF = 1 ∧
    (after (poke (((lit 5 5).setV 1 4).setV 2 5 |>.setI 0x300) 0x300 [0x80]) 0xD121).getV 0xF = 0 ∧
    (after (poke ((start [(0xF, 5), (1, 2)]).setI 0x300) 0x300 [0x80]) 0xDF11).pix.get 5 2 = true := by decide +kernel

/-- T1. -/
theorem test_ldVxDt :
    (after (State.reset.setDt 0x2A) 0xF307).getV 3 = 0x2A := by decide

/-- T2. -/
theorem test_ldDtVx :
    (after (start [(3, 0x3C)]) 0xF315).dt = 0x3C ∧ (after (start [(3, 0x3C)]) 0xF315).st = 0 := by decide

/-- T3. -/
theorem test_ldStVx :
    (after (start [(3, 5)]) 0xF318).st = 5 ∧ (after (start [(3, 5)]) 0xF318).dt = 0 := by decide

/-- T7. -/
theorem test_ldVxK :
    parked.pc = 0x0202 ∧ parked.wait = true ∧ parked.wx = 5 ∧ parked.getV 5 = 0 := by decide

/-! ## Moves of the host, the fetch and its faults -/

/-- T4, T5, T6. -/
theorem test_timerTick :
    ((State.reset.setDt 2).setSt 1).timerTick = State.reset.setDt 1 ∧ (State.reset.setDt 1).timerTick = State.reset ∧
    State.reset.timerTick = State.reset := by decide

/-- T11. -/
theorem test_keyWrite_delivers :
    (parked.keyWrite 11 true).getKey 11 = true ∧ (parked.keyWrite 11 true).getV 5 = 11 ∧
    (parked.keyWrite 11 true).wait = false ∧ (parked.keyWrite 11 true).pc = 0x0202 := by decide

/-- T13. -/
theorem test_keyWrite_repeat_delivers :
    ((parked.setKey 4 true).keyWrite 4 true).getV 5 = 4 ∧ ((parked.setKey 4 true).keyWrite 4 true).wait = false :=
    by decide

/-- T10. -/
theorem test_keyWrite_release_waits :
    (parked.keyWrite 3 false).wait = true ∧ (parked.keyWrite 3 false).getKey 3 = false := by decide

/-- T14. -/
theorem test_earlier_press_forgotten :
    (after (State.reset.keyWrite 2 true) 0xFA0A).wait = true ∧ (after (State.reset.keyWrite 2 true) 0xFA0A).getV 0xA = 0 :=
    by decide

/-- T15. -/
theorem test_keyWrite_into_flag_register :
    ((after State.reset 0xFF0A).keyWrite 12 true).getV 0xF = 12 := by decide

/-- X1. -/
theorem test_fetch_last_word :
    (after (State.reset.setPc 0xFFE) 0x1200).pc = 0x0200 ∧ ((State.reset.setPc 0xFFE).withFetchWord 16 0x1200).pc = 0xFFE :=
    by decide

/-- X13. -/
theorem test_fetch_odd_pc :
    (after (State.reset.setPc 0x201) 0x6A05).getV 0xA = 5 ∧ (after (State.reset.setPc 0x201) 0x6A05).pc = 0x203 :=
    by decide

/-- X4, X10. -/
theorem test_illegal_word_faults :
    (after State.reset 0x0000).fault = some (.unsupportedInstruction 0x0000) ∧
    (after State.reset 0x812F).fault = some (.unsupportedInstruction 0x812F) := by decide

/-- R41, M24: the default table, digits 0 and F. -/
theorem test_reset_font :
    (List.range 5).map State.reset.mem.read = [0xF0, 0x90, 0x90, 0x90, 0xF0] ∧
    ((List.range 5).map fun r => State.reset.mem.read (75 + r)) = [0xF0, 0x80, 0xF0, 0x80, 0x80] ∧ State.reset.mem.read 80 = 0 :=
    by decide

/-- R41: another FONT stands at 0x000 to 0x04F and nowhere else. -/
theorem test_reset_other_font :
    (resetWith (Vector.replicate 80 0xA5) []).map (fun s => [0, 79, 80].map s.mem.read) = some [0xA5, 0xA5, 0] := by
  decide

/-- S9: the program bytes stand from 0x200 up. -/
theorem test_reset_loads_program :
    (resetWith defaultFont [0x6A, 0x05, 0xFA, 0x29]).map (fun s => (List.range 5).map fun j => s.mem.read (0x200 + j)) =
    some [0x6A, 0x05, 0xFA, 0x29, 0] := by decide

/-- R214, R216: what the core returns. -/
theorem test_replies :
    replyTo State.reset parked (.step 0) = .fault none ∧ replyTo parked parked .statusRead = .status true none ∧
    replyTo (State.reset.setDt 3) State.reset .timerRead = .timers 3 0 := by decide
/-! ## Witnesses: states and operands that meet the hypotheses of each statement of Certificates/Slice0, one for each
clause, at the boundary of its range. A statement not named here has no hypothesis. -/

theorem witness_RetPopsReturnAddress : 0 < (deep 1 0x0ABC).sp.val ∧ State.reset.sp.val = 0 := by decide

theorem witness_CallPushesAdvancedPc : (deep 15 0x0ABC).sp.val < 16 ∧ (deep 16 0x0ABC).sp.val = 16 := by decide

theorem witness_ReturnUndoesCall : (deep 15 0x0ABC).sp.val < 16 ∧ ∃ t, exec (.call 0x312) (deep 15 0x0ABC) = .next t :=
  ⟨by decide, _, rfl⟩

theorem witness_KeySkipsTestKeyOrFault :
    ((start [(5, 15)]).getV 5).toNat = (15 : Nibble).toNat ∧ 15 < ((start [(5, 16)]).getV 5).toNat := by decide

/-- A destination that is not VF, and a register that is neither. -/
theorem witness_AddSetsCarry : (0xE : Nibble) ≠ vf ∧ (0 : Nibble) ≠ 0xE ∧ (0 : Nibble) ≠ vf := by decide

theorem witness_SubtractionsSetStrictFlag : (0xE : Nibble) ≠ vf ∧ (0 : Nibble) ≠ 0xE ∧ (0 : Nibble) ≠ vf := by decide

theorem witness_ShiftsMoveOneBit : (0xE : Nibble) ≠ vf ∧ (0 : Nibble) ≠ 0xE ∧ (0 : Nibble) ≠ vf := by decide

/-- The lowest bit outside the mask 0x0F. -/
theorem witness_RandomByteIsMasked : (0x0F : Byte).getLsbD 4 = false ∧ (0 : Nibble) ≠ 3 := by decide

theorem witness_DigitsStoredAtIndex : State.reset.mem.wf = true ∧ (State.reset.setI 0xFFD).dataAddr 2 < 4096 ∧
    4096 ≤ (State.reset.setI 0xFFE).dataAddr 2 := by decide

theorem witness_RegistersStoredAtIndex : State.reset.mem.wf = true ∧
    (State.reset.setI 0xFF0).dataAddr (15 : Nibble).toNat < 4096 ∧
    4096 ≤ (State.reset.setI 0xFF1).dataAddr (15 : Nibble).toNat := by decide

theorem witness_RegistersLoadedFromIndex : (State.reset.setI 0xFFF).dataAddr (0 : Nibble).toNat < 4096 ∧
    4096 ≤ (State.reset.setI 0x1000).dataAddr (0 : Nibble).toNat := by decide

theorem witness_LoadUndoesStore : (State.reset.setI 0xFF0).mem.wf = true ∧
    (State.reset.setI 0xFF0).dataAddr (15 : Nibble).toNat < 4096 ∧
    ∃ t, exec (.ldMemVx 15) (State.reset.setI 0xFF0) = .next t := ⟨by decide, by decide, _, rfl⟩

/-- PC and the stores at the top of memory: Fx55 with I at PC, from below and from above PC, and Fx33 from below. -/
theorem witness_StoreSeenByNextFetch : State.reset.mem.wf = true ∧ (State.reset.setPc 0xFFE).pc.toNat + 1 < 4096 ∧
    (State.reset.setI 0xFFE).dataAddr (1 : Nibble).toNat < 4096 ∧
    (State.reset.setI 0xFF0).dataAddr (15 : Nibble).toNat < 4096 ∧
    (State.reset.setI 0xFFF).dataAddr (0 : Nibble).toNat < 4096 ∧ (State.reset.setI 0xFFD).dataAddr 2 < 4096 := by decide

/-- P4 and R76: a store over both bytes, over the first alone and over the second alone, and digits from below. -/
theorem test_store_seen_by_fetch :
    (after (((start [(0, 0x12), (1, 0x08)]).setI 0x202)) 0xF155).fetch.toOption = some 0x1208 ∧
    (after (((start [(0, 0x12), (1, 0x08)]).setI 0x201)) 0xF155).fetch.toOption = some 0x0800 ∧
    (after (((start [(0, 0x12)]).setI 0x203)) 0xF055).fetch.toOption = some 0x0012 ∧
    (after (((start [(1, 0xFE)]).setI 0x201)) 0xF133).fetch.toOption = some 0x0504 := by decide

theorem blank_of_reset (a : Word) (cx : Fin 64) (cy : Fin 32) : (State.reset.setI a).pix.get cx cy = false := by
  simp [State.setI, State.reset, Pixels.get]

/-- W9, W12 and W11 for the two ranges, W7 for a collision, W1 for none. -/
theorem witness_DrawXorsSpriteAndReportsCollision :
    ((0 : Nibble).toNat = 0 ∨ (State.reset.setI 0x1000).i.toNat + (0 : Nibble).toNat ≤ 4096) ∧
    ((1 : Nibble).toNat = 0 ∨ (State.reset.setI 0xFFF).i.toNat + (1 : Nibble).toNat ≤ 4096) ∧
    (0 < (2 : Nibble).toNat ∧ 4096 < (State.reset.setI 0xFFF).i.toNat + (2 : Nibble).toNat) ∧
    (∃ cx cy, (lit 5 5).pix.get cx cy = true ∧ spritePixel [(0x300, 0x80)] 0x300 1 5 5 cx cy = true) ∧
    ∀ cx cy, (State.reset.setI 0x300).pix.get cx cy = true → spritePixel [(0x300, 0xFF)] 0x300 1 0 0 cx cy = false :=
  ⟨by decide, by decide, by decide, ⟨5, 5, by decide, by decide⟩, fun cx cy h =>
    absurd (h.symm.trans (blank_of_reset 0x300 cx cy)) (by decide)⟩

theorem witness_DrawTwiceRestoresDisplay : (1 : Nibble) ≠ vf ∧ (2 : Nibble) ≠ vf ∧
    ((1 : Nibble).toNat = 0 ∨ (State.reset.setI 0xFFF).i.toNat + (1 : Nibble).toNat ≤ 4096) ∧
    (∀ cx cy, (State.reset.setI 0xFFF).pix.get cx cy = false) ∧
    ∃ t, exec (.drw 1 2 1) (State.reset.setI 0xFFF) = .next t :=
  ⟨by decide, by decide, by decide, blank_of_reset 0xFFF, _, rfl⟩

theorem witness_HoldChangesNothing : parked.wait = true := by decide

/-- A schedule with a hold, a tick, a read and a release. -/
theorem witness_OnlyKeyPressEndsWait : parked.wait = true ∧
    ∀ k, Move.keyWrite k true ∉ [Move.step 0x5A, .timerTick, .displayRead, .keyWrite 3 false] :=
  ⟨by decide, by simp⟩

theorem witness_AwaitedKeyIsDelivered : parked.wait = true ∧ parked.fault = none := by decide

/-- The state parked and faulted by hand, which no run reaches. -/
def parkedFaulted : State := { parked with fault := some (.stackFault .overflow) }

theorem witness_OtherKeyWritesOnlySetKey :
    (false = false ∨ parked.wait = false ∨ parked.fault ≠ none) ∧
    (true = false ∨ State.reset.wait = false ∨ State.reset.fault ≠ none) ∧
    (true = false ∨ parkedFaulted.wait = false ∨ parkedFaulted.fault ≠ none) := by decide

/-- X1: the last address a word can be fetched from. -/
theorem witness_StepRunsDecodedInstruction : let s := (State.reset.setPc 0xFFE).withFetchWord 16 0x1200
    s.fault = none ∧ s.wait = false ∧ s.pc.toNat + 1 < 4096 ∧
    decode [s.mem.read s.pc.toNat, s.mem.read (s.pc.toNat + 1)] = .ok (.jp 0x200, []) := by decide

/-- X2 and X3. -/
theorem witness_FetchBeyondMemoryFaults :
    (State.reset.fault = none ∧ State.reset.wait = false ∧ 4095 ≤ (State.reset.setPc 0xFFF).pc.toNat ∧
      lowestOffending (State.reset.setPc 0xFFF).pc.toNat = 0x1000) ∧
    4095 ≤ (State.reset.setPc 0x10FE).pc.toNat ∧ lowestOffending (State.reset.setPc 0x10FE).pc.toNat = 0x10FE := by
  decide

/-- The last two bytes of empty memory. -/
theorem witness_IllegalWordFaults : let s := State.reset.setPc 0xFFE
    s.fault = none ∧ s.wait = false ∧ s.pc.toNat + 1 < 4096 ∧
    legalWord (wordOfBytes (s.mem.read s.pc.toNat) (s.mem.read (s.pc.toNat + 1))) = false := by decide

theorem witness_EachInstructionRaisesOnlyItsOwnFault : State.reset.fault = none := by decide

theorem witness_FaultIsFinal : parkedFaulted.fault = some (.stackFault .overflow) := by decide

theorem witness_JumpToSelfLeavesStateUnchanged : let s := State.reset.withFetchWord 16 0x1200
    s.fault = none ∧ s.wait = false ∧ jumpsToItself s = true := by decide

/-- The whole-machine rules speak of an instruction that answers a next state without a fault; ADD V1, V2 is outside
every exception they name. -/
theorem witness_OnlyStoresWriteMemory : (∃ t, exec (.addReg 1 2) State.reset = .next t ∧ t.fault = none) ∧
    (∀ x, Instr.addReg 1 2 ≠ .ldBVx x) ∧ ∀ x, Instr.addReg 1 2 ≠ .ldMemVx x := ⟨⟨_, rfl, rfl⟩, nofun, nofun⟩

theorem witness_EachDeviceHasItsOwnWriters : (∃ t, exec (.addReg 1 2) State.reset = .next t ∧ t.fault = none) ∧
    Instr.addReg 1 2 ≠ .cls ∧ (∀ x y n, Instr.addReg 1 2 ≠ .drw x y n) ∧ (∀ x, Instr.addReg 1 2 ≠ .ldDtVx x) ∧
    (∀ x, Instr.addReg 1 2 ≠ .ldStVx x) ∧ Instr.addReg 1 2 ≠ .ret ∧ (∀ a, Instr.addReg 1 2 ≠ .call a) ∧
    (∀ x, Instr.addReg 1 2 ≠ .ldVxK x) ∧ (∀ a, Instr.addReg 1 2 ≠ .ldI a) ∧ (∀ x, Instr.addReg 1 2 ≠ .addIVx x) ∧
    ∀ x, Instr.addReg 1 2 ≠ .ldFVx x :=
  ⟨⟨_, rfl, rfl⟩, nofun, nofun, nofun, nofun, nofun, nofun, nofun, nofun, nofun, nofun⟩

/-- The first register above the ones Fx65 loads. -/
theorem witness_OnlyListedRegistersAreWritten : (∃ t, exec (.ldVxMem 2) State.reset = .next t ∧ t.fault = none) ∧
    writesReg 3 (.ldVxMem 2) = false := ⟨⟨_, rfl, rfl⟩, rfl⟩

/-- The first register above the ones Fx55 stores. -/
theorem witness_UnreadRegisterHasNoInfluence : (∃ t, exec (.ldMemVx 2) State.reset = .next t ∧ t.fault = none) ∧
    readsReg 3 (.ldMemVx 2) = false ∧ writesReg 3 (.ldMemVx 2) = false := ⟨⟨_, rfl, rfl⟩, rfl, rfl⟩

/-- Fx0A, which waits for a key, does not read one. -/
theorem witness_KeysInfluenceOnlyKeySkips : (∃ t, exec (.ldVxK 5) State.reset = .next t ∧ t.fault = none) ∧
    (∀ x, Instr.ldVxK 5 ≠ .skp x) ∧ ∀ x, Instr.ldVxK 5 ≠ .sknp x := ⟨⟨_, rfl, rfl⟩, nofun, nofun⟩

theorem witness_ByteAccessContract : Memory.wf [(0xFFF, 1)] = true ∧ 4095 < 4096 ∧ 4096 ≤ 4096 := by decide

theorem witness_WordReadIsBigEndian : 4094 + 1 < 4096 ∧ 4095 = 4095 ∧ 4096 ≤ 4096 ∧
    memRead2 [(0xFFE, 0xAB), (0xFFF, 0xCD)] 4094 = .ok 0xABCD := by decide

theorem witness_WordWriteReadsBack : Memory.wf [(0xFFF, 1)] = true ∧ 4094 + 1 < 4096 ∧ 4095 = 4095 ∧ 4096 ≤ 4096 ∧
    memWrite2 [(0xFFF, 1)] 4094 0xABCD = .ok [(0xFFE, 0xAB), (0xFFF, 0xCD)] := by decide

/-- Two bytes stored in either order. -/
theorem witness_CanonicalMemoryIsUnique : let m := Memory.write (Memory.write [] 0x300 1) 0xFFF 2
    let m' := Memory.write (Memory.write [] 0xFFF 2) 0x300 1
    m.wf = true ∧ m'.wf = true ∧ ∀ a, a < 4096 → m.read a = m'.read a := ⟨by decide, by decide, fun _ _ => rfl⟩

/-- A step that stores, and the step that faults on empty memory. -/
theorem witness_StepKeepsMemoryCanonical :
    (((start [(0, 0x9A)]).setI 0xFFF).withFetchWord 16 0xF055).mem.wf = true ∧
    (∃ t, step (((start [(0, 0x9A)]).setI 0xFFF).withFetchWord 16 0xF055) = .next t) ∧
    State.reset.mem.wf = true ∧ ∃ t, step State.reset = .next t := ⟨by decide, ⟨_, rfl⟩, by decide, _, rfl⟩

/-- PC and every return address at the top of their ranges. -/
def atLimits : State := { State.reset with pc := 0x10FE, sp := 16, stack := Vector.replicate 16 0x1000 }

theorem atLimits_inRange : atLimits.ControlInRange := by
  unfold State.ControlInRange
  decide

theorem witness_StepKeepsControlInRange : atLimits.ControlInRange ∧ ∃ t, step atLimits = .next t :=
  ⟨atLimits_inRange, _, rfl⟩

theorem witness_HostMovesKeepInvariants : atLimits.mem.wf = true ∧ atLimits.ControlInRange :=
  ⟨by decide, atLimits_inRange⟩

theorem witness_ResetLeavesTableOfValues : 3584 < (List.replicate 3585 (0 : Byte)).length ∧
    (List.replicate 3584 (0 : Byte)).length ≤ 3584 := by
  rw [List.length_replicate, List.length_replicate]; decide

theorem witness_ResetMeetsInvariants : ∃ s, resetWith (Vector.replicate 80 0xA5) [0x6A, 0x05, 0xFA, 0x29] = some s := ⟨_, rfl⟩

theorem witness_EncodeOfDecodeIsIdentity : decodeWord 0xDFFF = some (.drw 0xF 0xF 0xF) := by decide

/-- PC where no word fits, so that the word goes to the load address. -/
theorem witness_PlacedWordIsRunNext : (State.reset.setPc 0xFFF).mem.wf = true ∧
    decodeTableWord 16 0xFF65 = some (.ldVxMem 0xF) := by decide

end Sys2Proof.Tests
end

section
/-! PROOFS. The memory family (spec/20_memory.md): the one-byte access and the 16-bit read. Both follow from the laws
of the checked accesses and from `Memory.read_write`. -/

namespace Sys2Proof.Machine

/-- The big-endian value of a word (rule R63): the byte at the lower address counts 256 times. -/
theorem wordOfBytes_toNat (hi lo : Byte) : (wordOfBytes hi lo).toNat = hi.toNat * 256 + lo.toNat := by
  have happend : (wordOfBytes hi lo).toNat = hi.toNat <<< 8 ||| lo.toNat := BitVec.toNat_append hi lo
  rw [happend, ← Nat.shiftLeft_add_eq_or_of_lt lo.isLt, Nat.shiftLeft_eq]

/-- Settles O46: below 4096 both accesses succeed and `Memory.read_write` says what is read afterwards; from 4096 on
both raise the addressing fault. -/
theorem byteAccessContract : Obligations.ByteAccessContract := by
  intro m addr b hwf
  refine ⟨fun hlt => ⟨memRead1_ok hlt, m.write addr b, memWrite1_ok b hlt, ?_, ?_⟩,
    fun hge => ⟨memRead1_error hge, memWrite1_error b hge⟩⟩
  · rw [Memory.read_write hwf, if_pos rfl]
  · intro a hne
    rw [Memory.read_write hwf, if_neg hne]

/-- Settles O47: the word read is `wordOfBytes` of the two cells; past memory the fault reports the larger of the
address and 4096, which is 4096 at 4095 and the address itself from 4096 on. -/
theorem wordReadIsBigEndian : Obligations.WordReadIsBigEndian := by
  intro m addr
  refine ⟨fun hlt => ⟨_, memRead2_ok hlt, wordOfBytes_toNat _ _⟩, ?_, fun hge => ?_⟩
  · rintro rfl
    exact memRead2_error (by decide)
  · have hmax : max addr memSize = addr := max_eq_left hge
    rw [memRead2_error (Nat.le_succ_of_le hge), hmax]

end Sys2Proof.Machine
end

section
/-! PROOFS. The encoding family (spec/30_encoding.md): the rows of rule R97 written by the formats of rule R94, what
each of them asks of the fields of a word, and the agreement of the table with the two-level map of rules R95, R96. -/

namespace Sys2Proof

open Laws.EncodedLegal (nibble_and_ones byte_and_ones)

/-! ## The rows by format -/

/-- The row that fixes op alone. -/
def rowOp (op : Nibble) : OpcodeRow := ⟨formatXYN 0xF 0 0 0, formatXYN op 0 0 0⟩

/-- The row that fixes op and the low nibble. -/
def rowOpN (op n : Nibble) : OpcodeRow := ⟨formatXYN 0xF 0 0 0xF, formatXYN op 0 0 n⟩

/-- The row that fixes op and the low byte. -/
def rowOpKk (op : Nibble) (kk : Byte) : OpcodeRow := ⟨formatXK 0xF 0 0xFF, formatXK op 0 kk⟩

/-- The row that fixes the whole word. -/
def rowWord (w : Word) : OpcodeRow := ⟨0xFFFF, w⟩

/-- Rule R97, its rows gathered by what they fix. -/
theorem opcodeRows_perm_formats : opcodeRows.Perm
    ([0x00E0, 0x00EE].map rowWord ++
     [0x1, 0x2, 0x3, 0x4, 0x6, 0x7, 0xA, 0xB, 0xC, 0xD].map rowOp ++
     [0x5, 0x9].map (rowOpN · 0x0) ++
     [0x0, 0x1, 0x2, 0x3, 0x4, 0x5, 0x6, 0x7, 0xE].map (rowOpN 0x8) ++
     [0x9E, 0xA1].map (rowOpKk 0xE) ++
     [0x07, 0x0A, 0x15, 0x18, 0x1E, 0x29, 0x33, 0x55, 0x65].map (rowOpKk 0xF)) := by decide

/-! ## What a row asks of the fields -/

theorem formatXYN_inj {op x y n op' x' y' n' : Nibble} :
    formatXYN op x y n = formatXYN op' x' y' n' ↔ op = op' ∧ x = x' ∧ y = y' ∧ n = n' := by
  refine ⟨fun h => ⟨?_, ?_, ?_, ?_⟩, by rintro ⟨rfl, rfl, rfl, rfl⟩; rfl⟩
  · simpa using congrArg fieldOp h
  · simpa using congrArg fieldX h
  · simpa using congrArg fieldY h
  · simpa using congrArg fieldN h

theorem formatXK_inj {op x op' x' : Nibble} {kk kk' : Byte} :
    formatXK op x kk = formatXK op' x' kk' ↔ op = op' ∧ x = x' ∧ kk = kk' := by
  refine ⟨fun h => ⟨?_, ?_, ?_⟩, by rintro ⟨rfl, rfl, rfl⟩; rfl⟩
  · simpa using congrArg fieldOp h
  · simpa using congrArg fieldX h
  · simpa using congrArg fieldKk h

theorem OpcodeRow.selects_iff {r : OpcodeRow} {w : Word} : r.selects w = true ↔ w &&& r.mask = r.pattern := beq_iff_eq

@[simp] theorem rowOp_selects (op : Nibble) (w : Word) :
    (rowOp op).selects w = true ↔ fieldOp w = op := by
  rw [OpcodeRow.selects_iff, rowOp, ← formatXYN_fields w, formatXYN_and, formatXYN_inj]
  simp [nibble_and_ones]

@[simp] theorem rowOpN_selects (op n : Nibble) (w : Word) :
    (rowOpN op n).selects w = true ↔ fieldOp w = op ∧ fieldN w = n := by
  rw [OpcodeRow.selects_iff, rowOpN, ← formatXYN_fields w, formatXYN_and, formatXYN_inj]
  simp [nibble_and_ones]

@[simp] theorem rowOpKk_selects (op : Nibble) (kk : Byte) (w : Word) :
    (rowOpKk op kk).selects w = true ↔ fieldOp w = op ∧ fieldKk w = kk := by
  rw [OpcodeRow.selects_iff, rowOpKk, ← formatXK_fields w, formatXK_and, formatXK_inj]
  simp [nibble_and_ones, byte_and_ones]

@[simp] theorem rowWord_selects (v w : Word) : (rowWord v).selects w = true ↔ w = v := by
  have hand : w &&& 0xFFFF = w := BitVec.and_allOnes
  rw [OpcodeRow.selects_iff, rowWord, hand]

/-! ## The two levels -/

/-- The words of the two-level map: op (rule R95) and, where op alone does not decide, the second level (rule R96). -/
def AcceptedFields (w : Word) : Prop :=
  fieldOp w = 0x0 ∧ w ∈ [0x00E0, 0x00EE] ∨
  fieldOp w ∈ [0x1, 0x2, 0x3, 0x4, 0x6, 0x7, 0xA, 0xB, 0xC, 0xD] ∨
  fieldOp w ∈ [0x5, 0x9] ∧ fieldN w = 0x0 ∨
  fieldOp w = 0x8 ∧ fieldN w ∈ [0x0, 0x1, 0x2, 0x3, 0x4, 0x5, 0x6, 0x7, 0xE] ∨
  fieldOp w = 0xE ∧ fieldKk w ∈ [0x9E, 0xA1] ∨
  fieldOp w = 0xF ∧ fieldKk w ∈ [0x07, 0x0A, 0x15, 0x18, 0x1E, 0x29, 0x33, 0x55, 0x65]

theorem legalWord_iff (w : Word) : legalWord w = true ↔ AcceptedFields w := by
  have hop0 : w ∈ [0x00E0, 0x00EE] → fieldOp w = 0x0 := by
    simp only [List.mem_cons, List.not_mem_nil, or_false]
    rintro (rfl | rfl) <;> rfl
  rw [legalWord, opcodeRows_perm_formats.any_eq, AcceptedFields, and_iff_right_of_imp hop0]
  simp only [List.any_append, List.any_map, Bool.or_eq_true, List.any_eq_true, Function.comp_apply, rowOp_selects,
    rowOpN_selects, rowOpKk_selects, rowWord_selects, and_left_comm (b := fieldOp w = _), exists_and_left,
    exists_eq_left', exists_eq_right', or_assoc]

theorem decodeOp0_isSome (w : Word) : (decodeOp0 w).isSome ↔ w ∈ [0x00E0, 0x00EE] := by
  unfold decodeOp0
  split_ifs <;> simp_all

theorem decodeOp8_isSome (x y n : Nibble) :
    (decodeOp8 x y n).isSome ↔ n ∈ [0x0, 0x1, 0x2, 0x3, 0x4, 0x5, 0x6, 0x7, 0xE] := by
  unfold decodeOp8
  split <;> simp_all [← BitVec.toNat_inj]

theorem decodeOpE_isSome (x : Nibble) (kk : Byte) : (decodeOpE x kk).isSome ↔ kk ∈ [0x9E, 0xA1] := by
  unfold decodeOpE
  split_ifs <;> simp_all

theorem decodeOpF_isSome (x : Nibble) (kk : Byte) :
    (decodeOpF x kk).isSome ↔ kk ∈ [0x07, 0x0A, 0x15, 0x18, 0x1E, 0x29, 0x33, 0x55, 0x65] := by
  unfold decodeOpF
  split_ifs <;> simp_all

/-- One case an op: a second level decides under 0x0, 0x8, 0xE and 0xF, and elsewhere op, with n under 0x5 and 0x9. -/
theorem decodeWord_isSome_iff (w : Word) : (decodeWord w).isSome = true ↔ AcceptedFields w := by
  have hfield (op : Nibble) : fieldOp w = op ↔ (fieldOp w).toNat = op.toNat := BitVec.toNat_inj.symm
  unfold decodeWord
  split
  case h_1 hop => simp [AcceptedFields, hfield, hop, decodeOp0_isSome]
  case h_9 hop => simp [AcceptedFields, hfield, hop, decodeOp8_isSome]
  case h_15 hop => simp [AcceptedFields, hfield, hop, decodeOpE_isSome]
  case h_16 =>
    have hop : (fieldOp w).toNat = 15 := by
      simp only [imp_false] at *
      omega
    simp [AcceptedFields, hfield, hop, decodeOpF_isSome]
  all_goals
    rename_i hop
    simp [AcceptedFields, hfield, hop]

/-! ## Disjoint rows -/

/-- Two rows that disagree on a bit both of them fix have no word in common: the word has that bit once. -/
theorem OpcodeRow.selects_disjoint {r q : OpcodeRow} (hne : r.pattern &&& q.mask ≠ q.pattern &&& r.mask) (w : Word) :
    ¬ (r.selects w = true ∧ q.selects w = true) := by
  rintro ⟨hr, hq⟩
  rw [selects_iff] at hr hq
  exact hne (by rw [← hr, ← hq, BitVec.and_assoc, BitVec.and_assoc, BitVec.and_comm r.mask])

theorem opcodeRows_pairwise_disagree :
    opcodeRows.Pairwise fun r q => r.pattern &&& q.mask ≠ q.pattern &&& r.mask := by decide

/-- Settles O58: the table and the two-level map both accept the words of `AcceptedFields`, and any two of the 34 rows
disagree on a bit that both fix. -/
theorem decoderAcceptsExactlyTheTable : Obligations.DecoderAcceptsExactlyTheTable :=
  ⟨fun w => Bool.eq_iff_iff.mpr ((decodeWord_isSome_iff w).trans (legalWord_iff w).symm), rfl,
    opcodeRows_pairwise_disagree.imp OpcodeRow.selects_disjoint⟩

end Sys2Proof
end

section
/-! PROOFS. The control-transfer family (spec/40_flow.md): the jump and the call. Both end in a write of PC, whose frame
is said once; the call adds what a push leaves. -/

namespace Sys2Proof.Machine

/-- Zero extension keeps the value of an address operand (rule R93). -/
@[simp] theorem addrOperand_toNat (nnn : Addr12) : (addrOperand nnn).toNat = nnn.toNat :=
  BitVec.toNat_setWidth_of_le (by decide)

theorem State.setPc_onlyChanges (s : State) (w : Word) : OnlyChanges [.pc] s (s.setPc w) := by
  intro p hp
  cases p
  case pc => exact absurd (List.mem_singleton.mpr rfl) hp
  all_goals simp [Part.Same]

/-- What a push on a stack with room leaves (rules R30, R122): the word in the slot at the old SP, one more live entry,
the older entries as they were. -/
theorem State.push_spec (s : State) (w : Word) (h : s.sp.val < 16) :
    ∃ t, s.push w = .ok t ∧ t.sp.val = s.sp.val + 1 ∧ t.stack[s.sp.val]? = some w ∧
      (∀ j : Fin 16, j.val < s.sp.val → t.stack[j.val] = s.stack[j.val]) ∧ OnlyChanges [.sp, .stack] s t := by
  refine ⟨_, s.push_ok w h, rfl, Vector.getElem?_set_self h,
    fun j hj => Vector.getElem_set_ne h j.isLt (Nat.ne_of_gt hj), fun p hp => ?_⟩
  cases p
  case sp | stack => simp at hp
  case v | mem | key => exact fun _ => rfl
  case pix => exact fun _ _ => rfl
  all_goals rfl

theorem exec_jp (nnn : Addr12) (s : State) : exec (.jp nnn) s = .next (s.setPc (addrOperand nnn)) := rfl

theorem exec_call (nnn : Addr12) (s : State) :
    exec (.call nnn) s = s.attempt (s.push s.pc) fun t => .next (t.setPc (addrOperand nnn)) := rfl

/-- Settles O2: the jump is the write of PC alone. -/
theorem jumpSetsPcToTarget : Obligations.JumpSetsPcToTarget := fun s nnn =>
  ⟨_, exec_jp nnn s, addrOperand_toNat nnn, s.setPc_onlyChanges _⟩

/-- Settles O3: with room on the stack the call is a push followed by the write of PC, which leaves SP and the stack
alone; with sixteen addresses held the push raises the overflow. -/
theorem callPushesAdvancedPc : Obligations.CallPushesAdvancedPc := by
  intro s nnn
  refine ⟨fun hroom => ?_, fun hfull => ?_⟩
  · obtain ⟨t, hpush, hsp, htop, hbelow, hframe⟩ := s.push_spec s.pc hroom
    have hexec : exec (.call nnn) s = .next (t.setPc (addrOperand nnn)) := by
      rw [exec_call, hpush, State.attempt_ok]
    have hcall : OnlyChanges [.pc, .sp, .stack] s (t.setPc (addrOperand nnn)) :=
      (hframe.trans (t.setPc_onlyChanges _)).mono (by decide)
    exact ⟨_, hexec, addrOperand_toNat nnn, hsp, htop, hbelow, hcall⟩
  · have hexec : exec (.call nnn) s = .next (s.takeFault (.stackFault .overflow)) := by
      rw [exec_call, s.push_error s.pc hfull.not_lt, State.attempt_error]
    exact ⟨_, hexec, s.takeFault_fault _⟩

end Sys2Proof.Machine
end

section
/-! PROOFS. The skip family (spec/41_skip.md): the four skips on register values. Each answers `skipIf` of one comparison
of two bytes, so what a skip leaves is said once, for PC and for the rest. -/

namespace Sys2Proof.Machine

/-- A skip, taken or not, is no more than the default advance. -/
theorem State.skipIf_onlyChanges (s : State) (c : Bool) : OnlyChanges [.pc] s (s.skipIf c) := by
  cases c
  case false => exact fun p _ => Part.Same.rfl' p s
  case true => exact advancePc_onlyChanges s

theorem State.skipIf_beq_pc (s : State) (a b : Byte) :
    (s.skipIf (a == b)).pc = if a = b then s.pc + 2 else s.pc := by
  simp only [State.skipIf_pc, beq_iff_eq]

theorem State.skipIf_bne_pc (s : State) (a b : Byte) :
    (s.skipIf (a != b)).pc = if a = b then s.pc else s.pc + 2 := by
  simp only [State.skipIf_pc, bne_iff_ne, ne_eq, ite_not]

theorem exec_seImm (x : Nibble) (kk : Byte) (s : State) :
    exec (.seImm x kk) s = .next (s.skipIf (s.getV x == kk)) := rfl

theorem exec_sneImm (x : Nibble) (kk : Byte) (s : State) :
    exec (.sneImm x kk) s = .next (s.skipIf (s.getV x != kk)) := rfl

theorem exec_seReg (x y : Nibble) (s : State) :
    exec (.seReg x y) s = .next (s.skipIf (s.getV x == s.getV y)) := rfl

theorem exec_sneReg (x y : Nibble) (s : State) :
    exec (.sneReg x y) s = .next (s.skipIf (s.getV x != s.getV y)) := rfl

/-- Settles O6: the equal forms skip on `==` and the unequal forms on `!=`; the frame is the skip's own. -/
theorem registerSkipsAddTwoOnCondition : Obligations.RegisterSkipsAddTwoOnCondition := by
  intro s x y kk
  refine ⟨?seImm, ?sneImm, ?seReg, ?sneReg⟩
  case seImm => exact ⟨_, exec_seImm x kk s, s.skipIf_beq_pc _ _, s.skipIf_onlyChanges _⟩
  case sneImm => exact ⟨_, exec_sneImm x kk s, s.skipIf_bne_pc _ _, s.skipIf_onlyChanges _⟩
  case seReg => exact ⟨_, exec_seReg x y s, s.skipIf_beq_pc _ _, s.skipIf_onlyChanges _⟩
  case sneReg => exact ⟨_, exec_sneReg x y s, s.skipIf_bne_pc _ _, s.skipIf_onlyChanges _⟩

end Sys2Proof.Machine
end

section
/-! PROOFS. The register load and arithmetic family (spec/42_alu.md): the two loads, the add of an immediate, the three
bitwise operations and the add with carry. All but the last answer one register write, so what that write leaves is said
once; the add with carry is the same write followed by the write of the flag. -/

namespace Sys2Proof.Machine

theorem State.setV_onlyChanges (s : State) (x : Nibble) (b : Byte) : OnlyChanges [.v] s (s.setV x b) := by
  intro p hp
  cases p
  case v => exact absurd (List.mem_singleton.mpr rfl) hp
  all_goals simp [Part.Same]

theorem State.setFlag_onlyChanges (s : State) (b : Bool) : OnlyChanges [.v] s (s.setFlag b) :=
  s.setV_onlyChanges vf (flagByte b)

@[simp] theorem State.getV_setFlag_vf (s : State) (b : Bool) : (s.setFlag b).getV vf = flagByte b :=
  s.getV_setV_same vf _

theorem State.getV_setFlag_ne (s : State) {r : Nibble} (b : Bool) (h : r ≠ vf) : (s.setFlag b).getV r = s.getV r :=
  s.getV_setV_ne _ h

/-- An instruction that answers the write of one register leaves the value there and all else as it was (rules R10 and
R11); VF is a register like the others here. -/
theorem setV_outcome {i : Instr} {s : State} {x : Nibble} {b : Byte} (hexec : exec i s = .next (s.setV x b)) :
    ∃ t, exec i s = .next t ∧ t.getV x = b ∧ (∀ r, r ≠ x → t.getV r = s.getV r) ∧ OnlyChanges [.v] s t :=
  ⟨_, hexec, s.getV_setV_same x b, fun _ hne => s.getV_setV_ne b hne, s.setV_onlyChanges x b⟩

theorem exec_ldImm (x : Nibble) (kk : Byte) (s : State) : exec (.ldImm x kk) s = .next (s.setV x kk) := rfl

theorem exec_addImm (x : Nibble) (kk : Byte) (s : State) :
    exec (.addImm x kk) s = .next (s.setV x (s.getV x + kk)) := rfl

theorem exec_ldReg (x y : Nibble) (s : State) : exec (.ldReg x y) s = .next (s.setV x (s.getV y)) := rfl

theorem exec_orReg (x y : Nibble) (s : State) :
    exec (.orReg x y) s = .next (s.setV x (s.getV x ||| s.getV y)) := rfl

theorem exec_andReg (x y : Nibble) (s : State) :
    exec (.andReg x y) s = .next (s.setV x (s.getV x &&& s.getV y)) := rfl

theorem exec_xorReg (x y : Nibble) (s : State) :
    exec (.xorReg x y) s = .next (s.setV x (s.getV x ^^^ s.getV y)) := rfl

theorem exec_addReg (x y : Nibble) (s : State) : exec (.addReg x y) s =
    .next ((s.setV x (s.getV x + s.getV y)).setFlag (carryOut (s.getV x) (s.getV y))) := rfl

/-- The carry as the byte VF holds (rules R24 and R151). -/
theorem flagByte_carryOut (a b : Byte) : flagByte (carryOut a b) = if a.toNat + b.toNat > 255 then 1 else 0 := by
  simp only [flagByte, carryOut, decide_eq_true_eq]

/-- Settles O11: the sum is written first and the carry, of the old operands, last. So VF holds the carry for every x,
and a register other than VF, Vx included, is what the write of the sum left. -/
theorem addSetsCarry : Obligations.AddSetsCarry := by
  intro s x y
  refine ⟨_, exec_addReg x y s, ?carry, fun hx => ?sum, fun r hrx hrf => ?others, ?frame⟩
  case carry => rw [State.getV_setFlag_vf, flagByte_carryOut]
  case sum => rw [State.getV_setFlag_ne _ _ hx, State.getV_setV_same, BitVec.toNat_add]
  case others => rw [State.getV_setFlag_ne _ _ hrf, s.getV_setV_ne _ hrx]
  case frame => exact ((s.setV_onlyChanges x _).trans (State.setFlag_onlyChanges _ _)).mono (by decide)

/-- Settles O8: both loads are one register write. -/
theorem loadsWriteOnlyVx : Obligations.LoadsWriteOnlyVx := fun s x y kk =>
  ⟨setV_outcome (exec_ldImm x kk s), setV_outcome (exec_ldReg x y s)⟩

/-- Settles O9: one register write, of a sum of bytes, whose value is the sum modulo 256. -/
theorem addImmediateLeavesFlag : Obligations.AddImmediateLeavesFlag := by
  intro s x kk
  obtain ⟨t, hexec, hsum, hframe⟩ := setV_outcome (exec_addImm x kk s)
  exact ⟨t, hexec, by rw [hsum, BitVec.toNat_add], hframe⟩

/-- Settles O10: each operation is one register write, of a byte whose bits are the operation on the operands' bits. -/
theorem bitwiseOpsLeaveFlag : Obligations.BitwiseOpsLeaveFlag := by
  intro s x y
  refine ⟨?or, ?and, ?xor⟩
  case or =>
    obtain ⟨t, hexec, hval, hframe⟩ := setV_outcome (exec_orReg x y s)
    exact ⟨t, hexec, fun j => by rw [hval, BitVec.getLsbD_or], hframe⟩
  case and =>
    obtain ⟨t, hexec, hval, hframe⟩ := setV_outcome (exec_andReg x y s)
    exact ⟨t, hexec, fun j => by rw [hval, BitVec.getLsbD_and], hframe⟩
  case xor =>
    obtain ⟨t, hexec, hval, hframe⟩ := setV_outcome (exec_xorReg x y s)
    exact ⟨t, hexec, fun j => by rw [hval, BitVec.getLsbD_xor], hframe⟩

end Sys2Proof.Machine
end

section
/-! PROOFS. The index and memory family (spec/43_index_memory.md): the two loads of I, the two stores and the load of
registers. Fx33 and Fx55 are one store of a run of bytes at I, so what such a store leaves is said once; Fx65 reads a
run of bytes at I and loads it into the registers from V0 on. -/

namespace Sys2Proof.Machine

/-! ## What the updates leave -/

theorem State.setI_onlyChanges (s : State) (w : Word) : OnlyChanges [.i] s (s.setI w) := by
  intro p hp
  cases p
  case i => exact absurd (List.mem_singleton.mpr rfl) hp
  all_goals simp [Part.Same]

theorem State.setMem_onlyChanges (s : State) (m : Memory) : OnlyChanges [.mem] s (s.setMem m) := by
  intro p hp
  cases p
  case mem => exact absurd (List.mem_singleton.mpr rfl) hp
  all_goals simp [Part.Same]

theorem State.loadRegs_onlyChanges (s : State) (k : Nat) (bs : List Byte) :
    OnlyChanges [.v] s (s.loadRegs k bs) := by
  induction bs generalizing s k with
  | nil => exact fun p _ => Part.Same.rfl' p s
  | cons b bs ih => exact ((s.setV_onlyChanges _ b).trans (ih _ _)).mono (by decide)

/-! ## Runs of bytes at I -/

theorem State.dataAddr_eq (s : State) (k : Nat) : s.dataAddr k = s.dataAddr 0 + k := rfl

theorem memWriteBytes_ok (m : Memory) {base : Nat} {bs : List Byte} (h : base + bs.length ≤ memSize) :
    memWriteBytes m base bs = .ok (m.load base bs) := by
  rw [memWriteBytes_eq, if_pos (.inr h)]

theorem memWriteBytes_error (m : Memory) {base : Nat} {bs : List Byte} (hne : bs ≠ [])
    (h : memSize < base + bs.length) :
    memWriteBytes m base bs = .error (.addressingFault (lowestOffending base)) := by
  rw [memWriteBytes_eq, if_neg (not_or.mpr ⟨hne, h.not_ge⟩), lowestOffending, memSize]

theorem memReadBytes_ok (m : Memory) {base n : Nat} (h : base + n ≤ memSize) :
    memReadBytes m base n = .ok ((List.range n).map fun j => m.read (base + j)) := by
  rw [memReadBytes_eq, if_pos (.inr h)]

theorem memReadBytes_error (m : Memory) {base n : Nat} (hne : n ≠ 0) (h : memSize < base + n) :
    memReadBytes m base n = .error (.addressingFault (lowestOffending base)) := by
  rw [memReadBytes_eq, if_neg (not_or.mpr ⟨hne, h.not_ge⟩), lowestOffending, memSize]

/-- The memory `m` holds the bytes `bs` at I, I + 1, … and the bytes of `s` everywhere else. -/
def StoredAtIndex (s : State) (bs : List Byte) (m : Memory) : Prop :=
  (∀ j < bs.length, m.read (s.dataAddr j) = bs.getD j 0) ∧
  ∀ a, a < s.dataAddr 0 ∨ s.dataAddr bs.length ≤ a → m.read a = s.mem.read a

theorem load_storedAtIndex {s : State} {bs : List Byte} (hwf : s.mem.wf = true)
    (hfit : s.dataAddr 0 + bs.length ≤ memSize) : StoredAtIndex s bs (s.mem.load (s.dataAddr 0) bs) := by
  refine ⟨fun j hj => ?_, fun a ha => ?_⟩
  · have hin : s.dataAddr 0 ≤ s.dataAddr j ∧ s.dataAddr j < s.dataAddr 0 + bs.length := by
      rw [s.dataAddr_eq j]; omega
    rw [Memory.read_load bs hfit hwf, if_pos hin, s.dataAddr_eq j, Nat.add_sub_cancel_left]
  · have hout : ¬ (s.dataAddr 0 ≤ a ∧ a < s.dataAddr 0 + bs.length) := by
      rw [s.dataAddr_eq bs.length] at ha; omega
    rw [Memory.read_load bs hfit hwf, if_neg hout]

/-- An instruction that stores the bytes `bs`, the last of them at I + k, leaves them there and all else as it was, or
takes the addressing fault (rules R68, R203). -/
theorem storeAtIndex_outcome {i : Instr} {s : State} {bs : List Byte} {k : Nat}
    (hexec : exec i s = s.attempt (memWriteBytes s.mem (s.dataAddr 0) bs) fun m => .next (s.setMem m))
    (hlen : bs.length = k + 1) (hwf : s.mem.wf = true) :
    (s.dataAddr k < 4096 → ∃ t, exec i s = .next t ∧ StoredAtIndex s bs t.mem ∧ OnlyChanges [.mem] s t) ∧
    (4096 ≤ s.dataAddr k → ∃ t, exec i s = .next t ∧
      t.fault = some (.addressingFault (lowestOffending (s.dataAddr 0)))) := by
  rw [hexec]
  refine ⟨fun hin => ?_, fun hout => ?_⟩
  · have hfit : s.dataAddr 0 + bs.length ≤ memSize := by rw [hlen]; exact hin
    rw [memWriteBytes_ok s.mem hfit]
    exact ⟨_, s.attempt_ok _ _, load_storedAtIndex hwf hfit, s.setMem_onlyChanges _⟩
  · have hpast : memSize < s.dataAddr 0 + bs.length := by rw [hlen]; exact Nat.lt_succ_of_le hout
    have hne : bs ≠ [] := List.ne_nil_of_length_eq_add_one hlen
    rw [memWriteBytes_error s.mem hne hpast]
    exact ⟨_, s.attempt_error _ _, s.takeFault_fault _⟩

/-! ## Fx33 and Fx55 -/

theorem exec_ldBVx (x : Nibble) (s : State) : exec (.ldBVx x) s =
    s.attempt (memWriteBytes s.mem (s.dataAddr 0) (bcdDigits (s.getV x))) fun m => .next (s.setMem m) := rfl

theorem exec_ldMemVx (x : Nibble) (s : State) : exec (.ldMemVx x) s =
    s.attempt (memWriteBytes s.mem (s.dataAddr 0) (s.firstRegs x)) fun m => .next (s.setMem m) := rfl

@[simp] theorem bcdDigits_length (b : Byte) : (bcdDigits b).length = 3 := rfl

/-- A digit of a byte fits in a byte, so each is stored as its own value (rule R163). -/
theorem bcdDigits_getD_toNat (b : Byte) :
    ((bcdDigits b).getD 0 0).toNat = b.toNat / 100 ∧ ((bcdDigits b).getD 1 0).toNat = b.toNat / 10 % 10 ∧
      ((bcdDigits b).getD 2 0).toNat = b.toNat % 10 := by
  have hb : b.toNat < 256 := b.isLt
  refine ⟨Nat.mod_eq_of_lt ?_, Nat.mod_eq_of_lt ?_, Nat.mod_eq_of_lt ?_⟩ <;> omega

/-- Settles O18: Fx33 is the store of the three digits. -/
theorem digitsStoredAtIndex : Obligations.DigitsStoredAtIndex := by
  intro s x hwf
  obtain ⟨hstore, hfault⟩ := storeAtIndex_outcome (exec_ldBVx x s) (bcdDigits_length _) hwf
  refine ⟨fun hin => ?_, hfault⟩
  obtain ⟨t, hexec, ⟨hbytes, hothers⟩, hframe⟩ := hstore hin
  obtain ⟨hundreds, tens, ones⟩ := bcdDigits_getD_toNat (s.getV x)
  rw [bcdDigits_length] at hbytes hothers
  refine ⟨t, hexec, ?_, ?_, ?_, hothers, hframe⟩
  · rw [hbytes 0 (by decide), hundreds]
  · rw [hbytes 1 (by decide), tens]
  · rw [hbytes 2 (by decide), ones]

/-- Settles O19: Fx55 is the store of the values of V0 to Vx. -/
theorem registersStoredAtIndex : Obligations.RegistersStoredAtIndex := by
  intro s x hwf
  obtain ⟨hstore, hfault⟩ := storeAtIndex_outcome (exec_ldMemVx x s) (s.firstRegs_length x) hwf
  refine ⟨fun hin => ?_, hfault⟩
  obtain ⟨t, hexec, ⟨hbytes, hothers⟩, hframe⟩ := hstore hin
  rw [s.firstRegs_length] at hbytes hothers
  refine ⟨t, hexec, fun r hr => ?_, hothers, hframe⟩
  rw [hbytes r.toNat (Nat.lt_succ_of_le hr), s.firstRegs_getD x r hr]

/-! ## Fx65 -/

theorem exec_ldVxMem (x : Nibble) (s : State) : exec (.ldVxMem x) s =
    s.attempt (memReadBytes s.mem (s.dataAddr 0) (x.toNat + 1)) fun bs => .next (s.loadRegs 0 bs) := rfl

/-- The registers after a load of the bytes f 0 to f x into V0 to Vx. -/
theorem State.getV_loadRegs_range (s : State) (x r : Nibble) (f : Nat → Byte) :
    (s.loadRegs 0 ((List.range (x.toNat + 1)).map f)).getV r =
      if r.toNat ≤ x.toNat then f r.toNat else s.getV r := by
  have hx : x.toNat < 16 := x.isLt
  rw [s.getV_loadRegs _ 0 (by simp; omega)]
  by_cases hr : r.toNat ≤ x.toNat
  · simp [hr, Nat.lt_succ_of_le hr]
  · simp [hr]

/-- Settles O20: inside memory Fx65 loads the bytes read at I, I + 1, … into the registers from V0 on, and past it the
read raises the fault. -/
theorem registersLoadedFromIndex : Obligations.RegistersLoadedFromIndex := by
  intro s x
  rw [exec_ldVxMem]
  refine ⟨fun hin => ?_, fun hout => ?_⟩
  · rw [memReadBytes_ok s.mem (show s.dataAddr 0 + (x.toNat + 1) ≤ memSize from hin)]
    refine ⟨_, s.attempt_ok _ _, fun r hr => ?_, fun r hr => ?_, s.loadRegs_onlyChanges _ _⟩
    · rw [s.getV_loadRegs_range, if_pos hr, s.dataAddr_eq r.toNat]
    · rw [s.getV_loadRegs_range, if_neg hr.not_ge]
  · have hpast : memSize < s.dataAddr 0 + (x.toNat + 1) := Nat.lt_succ_of_le hout
    rw [memReadBytes_error s.mem x.toNat.succ_ne_zero hpast]
    exact ⟨_, s.attempt_error _ _, s.takeFault_fault _⟩

/-! ## Annn and Fx29 -/

theorem exec_ldI (nnn : Addr12) (s : State) : exec (.ldI nnn) s = .next (s.setI (addrOperand nnn)) := rfl

theorem exec_ldFVx (x : Nibble) (s : State) : exec (.ldFVx x) s = .next (s.setI (glyphAddr (s.getV x))) := rfl

/-- Five times a byte fits in I, so nothing wraps (rule R162). -/
theorem glyphAddr_toNat (b : Byte) : (glyphAddr b).toNat = 5 * b.toNat := by
  have hb : b.toNat < 256 := b.isLt
  rw [glyphAddr, BitVec.toNat_ofNat, Nat.mod_eq_of_lt (by omega)]

/-- Settles O16: both are the write of I alone. -/
theorem indexLoadsSetI : Obligations.IndexLoadsSetI := fun s nnn x =>
  ⟨⟨_, exec_ldI nnn s, addrOperand_toNat nnn, s.setI_onlyChanges _⟩,
    ⟨_, exec_ldFVx x s, glyphAddr_toNat _, s.setI_onlyChanges _⟩⟩

end Sys2Proof.Machine
end

section
/-! PROOFS. The display family (spec/44_display.md): the clear and the draw. The compositor's laws speak of the rows a
draw has read; the bit of such rows at a pixel is the bit of the sprite in memory there, and the draw's laws follow. -/

namespace Sys2Proof.Machine

theorem State.setPix_onlyChanges (s : State) (p : Pixels) : OnlyChanges [.pix] s (s.setPix p) := by
  intro q hq
  cases q
  case pix => exact absurd (List.mem_singleton.mpr rfl) hq
  all_goals simp [Part.Same]

/-! ## 00E0 -/

theorem exec_cls (s : State) : exec .cls s = .next (s.setPix blankPixels) := rfl

/-- Settles O23: the clear is the write of the blank display alone. -/
theorem clearBlanksEveryPixel : Obligations.ClearBlanksEveryPixel := fun s =>
  ⟨_, exec_cls s, Pixels.get_blank, s.setPix_onlyChanges _⟩

/-! ## The rows of a sprite in memory -/

/-- The `n` bytes from `base` on, the rows of the sprite there (rule R171). -/
def spriteRows (m : Memory) (base n : Nat) : List Byte := (List.range n).map fun j => m.read (base + j)

@[simp] theorem spriteRows_length (m : Memory) (base n : Nat) : (spriteRows m base n).length = n := by
  simp [spriteRows]

theorem spriteRows_getD (m : Memory) (base : Nat) {n row : Nat} (h : row < n) :
    (spriteRows m base n).getD row 0 = m.read (base + row) := by
  simp [spriteRows, h]

/-- The position is reduced to the screen before the draw, and a distance round the edge is the same either way. -/
theorem spriteAt_spriteRows (m : Memory) (base n x0 y0 : Nat) (cx : Fin 64) (cy : Fin 32) :
    spriteAt (spriteRows m base n) (x0 % 64) (y0 % 32) cx cy = spritePixel m base n x0 y0 cx cy := by
  simp only [spriteAt, spritePixel, Nat.mod_mod, spriteRows_length]
  by_cases hrow : (cy.val + 32 - y0 % 32) % 32 < n
  · rw [spriteRows_getD m base hrow]
  · simp [hrow]

/-! ## Dxyn -/

/-- What Dxyn draws in a state: the display afterwards and the collision bit (rules R171, R172). -/
def State.drawAtIndex (s : State) (x y n : Nibble) : Pixels × Bool :=
  drawSprite s.pix ((s.getV x).toNat % 64) ((s.getV y).toNat % 32) (spriteRows s.mem s.i.toNat n.toNat)

/-- At most 15 rows are drawn, so no two of them share a screen row (rule R173). -/
theorem spriteRows_length_le (m : Memory) (base : Nat) (n : Nibble) : (spriteRows m base n.toNat).length ≤ 32 := by
  have hn : n.toNat < 16 := n.isLt
  rw [spriteRows_length]
  omega

theorem State.drawAtIndex_get (s : State) (x y n : Nibble) (cx : Fin 64) (cy : Fin 32) :
    (s.drawAtIndex x y n).1.get cx cy =
      (s.pix.get cx cy ^^ spritePixel s.mem s.i.toNat n.toNat (s.getV x).toNat (s.getV y).toNat cx cy) := by
  rw [drawAtIndex, drawSprite_get _ _ _ _ (spriteRows_length_le ..), spriteAt_spriteRows]

theorem State.drawAtIndex_collides (s : State) (x y n : Nibble) :
    (s.drawAtIndex x y n).2 = true ↔ ∃ cx cy, s.pix.get cx cy = true ∧
      spritePixel s.mem s.i.toNat n.toNat (s.getV x).toNat (s.getV y).toNat cx cy = true := by
  rw [drawAtIndex, drawSprite_collides _ _ _ _ (spriteRows_length_le ..)]
  simp only [spriteAt_spriteRows, and_comm]

theorem exec_drw (x y n : Nibble) (s : State) : exec (.drw x y n) s =
    s.attempt (memReadBytes s.mem s.i.toNat n.toNat) fun rows =>
      let drawn := drawSprite s.pix ((s.getV x).toNat % 64) ((s.getV y).toNat % 32) rows
      .next ((s.setPix drawn.1).setFlag drawn.2) := rfl

/-- A draw whose sprite is inside memory, or has no row, writes the display and then VF. -/
theorem exec_drw_ok {s : State} {n : Nibble} (x y : Nibble) (h : n.toNat = 0 ∨ s.i.toNat + n.toNat ≤ memSize) :
    exec (.drw x y n) s = .next ((s.setPix (s.drawAtIndex x y n).1).setFlag (s.drawAtIndex x y n).2) := by
  have hrows : memReadBytes s.mem s.i.toNat n.toNat = .ok (spriteRows s.mem s.i.toNat n.toNat) := by
    rw [memReadBytes_eq, if_pos h, spriteRows]
  rw [exec_drw, hrows, State.attempt_ok, State.drawAtIndex]

theorem exec_drw_error {s : State} {n : Nibble} (x y : Nibble) (hn : n.toNat ≠ 0)
    (h : memSize < s.i.toNat + n.toNat) :
    exec (.drw x y n) s = .next (s.takeFault (.addressingFault (lowestOffending s.i.toNat))) := by
  rw [exec_drw, memReadBytes_error s.mem hn h, State.attempt_error]

/-- Settles O24: the display is the draw's, and VF, written last, is its collision bit; past memory the read of the rows
raises the fault. -/
theorem drawXorsSpriteAndReportsCollision : Obligations.DrawXorsSpriteAndReportsCollision := by
  intro s x y n
  refine ⟨fun hin => ?drawn, fun hn hpast => ⟨_, exec_drw_error x y hn.ne' hpast, s.takeFault_fault _⟩⟩
  case drawn =>
    refine ⟨_, exec_drw_ok x y hin, s.drawAtIndex_get x y n, fun hlit => ?hit, fun hclear => ?miss,
      fun r hr => ?others, ?frame⟩
    case hit =>
      have hbit : (s.drawAtIndex x y n).2 = true := (s.drawAtIndex_collides x y n).mpr hlit
      rw [State.getV_setFlag_vf, hbit]
      rfl
    case miss =>
      have hbit : (s.drawAtIndex x y n).2 = false := by
        rw [Bool.eq_false_iff, ne_eq, s.drawAtIndex_collides]
        rintro ⟨cx, cy, hlit, hsprite⟩
        exact Bool.false_ne_true ((hclear cx cy hlit).symm.trans hsprite)
      rw [State.getV_setFlag_vf, hbit]
      rfl
    case others => rw [State.getV_setFlag_ne _ _ hr, State.setPix_getV]
    case frame => exact ((s.setPix_onlyChanges _).trans (State.setFlag_onlyChanges _ _)).mono (by decide)

end Sys2Proof.Machine
end

section
/-! PROOFS. The timer moves (spec/45_timers_keys.md): Fx07, Fx15 and Fx18. Each is one write, of a register or of one
timer, so each takes its frame from the frame of that write. -/

namespace Sys2Proof.Machine

theorem State.setDt_onlyChanges (s : State) (b : Byte) : OnlyChanges [.dt] s (s.setDt b) := by
  intro p hp
  cases p
  case dt => exact absurd (List.mem_singleton.mpr rfl) hp
  all_goals simp [Part.Same]

theorem State.setSt_onlyChanges (s : State) (b : Byte) : OnlyChanges [.st] s (s.setSt b) := by
  intro p hp
  cases p
  case st => exact absurd (List.mem_singleton.mpr rfl) hp
  all_goals simp [Part.Same]

theorem exec_ldVxDt (x : Nibble) (s : State) : exec (.ldVxDt x) s = .next (s.setV x s.dt) := rfl

theorem exec_ldDtVx (x : Nibble) (s : State) : exec (.ldDtVx x) s = .next (s.setDt (s.getV x)) := rfl

theorem exec_ldStVx (x : Nibble) (s : State) : exec (.ldStVx x) s = .next (s.setSt (s.getV x)) := rfl

/-- Settles O27: Fx07 is the write of Vx alone, Fx15 of the delay timer alone, Fx18 of the sound timer alone. -/
theorem timerInstructionsMoveBytes : Obligations.TimerInstructionsMoveBytes := fun s x =>
  ⟨setV_outcome (exec_ldVxDt x s),
    ⟨_, exec_ldDtVx x s, s.setDt_dt _, s.setDt_onlyChanges _⟩,
    ⟨_, exec_ldStVx x s, s.setSt_st _, s.setSt_onlyChanges _⟩⟩

end Sys2Proof.Machine
end

section
/-! PROOFS. The exceptions family (spec/60_exceptions.md): the unsupported-instruction fault. It is raised by the
selection of an instruction, before anything is executed, so it is the same however instructions are run. -/

namespace Sys2Proof

/-- The table of rule R97 as the decoder's test: an illegal word selects no instruction (rule R99). -/
theorem decodeWord_eq_none_iff (w : Word) : decodeWord w = none ↔ legalWord w = false := by
  obtain ⟨hisSome, -, -⟩ := decoderAcceptsExactlyTheTable
  rw [← hisSome, Option.isSome_eq_false_iff, Option.isNone_iff_eq_none]

namespace Machine

/-- The step at a fetched word that selects no instruction (rule R92 step 2). -/
theorem State.stepBy_unsupported {s : State} {w : Word} (run : Instr → State → Host.Outcome State Fault Refusal)
    (hf : s.fault = none) (hw : s.wait = false) (hfetch : s.fetch = .ok w) (hdecode : decodeWord w = none) :
    s.stepBy run = .next (s.takeFault (.unsupportedInstruction w)) := by
  rw [s.stepBy_run run hf hw, hfetch, State.attempt_ok, selectInstr_error hdecode, State.attempt_error]

/-- Settles O37: the fetch succeeds and the decode does not, so with or without an input byte the step takes the one
fault. -/
theorem illegalWordFaults : Obligations.IllegalWordFaults := by
  intro s hf hw hpc hillegal
  have hstep := fun run => State.stepBy_unsupported run hf hw (s.fetch_ok hpc) ((decodeWord_eq_none_iff _).mpr hillegal)
  exact ⟨_, hstep exec, s.takeFault_fault _, fun byte => hstep (execWith byte)⟩

end Machine
end Sys2Proof
end

section
/-! PROOFS. What an instruction does when it raises no fault: the arms of `exec` that no earlier part needed, the parts
of the state each instruction changes (spec/10_state.md rule R20), and from that table the whole-machine rules that name
the writers of each piece of state. -/

namespace Sys2Proof.Machine

/-! ## Arms of `exec` -/

theorem exec_ret (s : State) : exec .ret s = s.attempt s.pop fun p => .next (p.2.setPc p.1) := rfl

theorem exec_jpV0 (nnn : Addr12) (s : State) :
    exec (.jpV0 nnn) s = .next (s.setPc (addrOperand nnn + byteOperand (s.getV 0))) := rfl

theorem exec_skp (x : Nibble) (s : State) :
    exec (.skp x) s = s.attempt (keyIndex (s.getV x)) fun k => .next (s.skipIf (s.getKey k)) := rfl

theorem exec_sknp (x : Nibble) (s : State) :
    exec (.sknp x) s = s.attempt (keyIndex (s.getV x)) fun k => .next (s.skipIf (!s.getKey k)) := rfl

theorem exec_subReg (x y : Nibble) (s : State) : exec (.subReg x y) s =
    .next ((s.setFlag (strictlyGreater (s.getV x) (s.getV y))).setV x (s.getV x - s.getV y)) := rfl

theorem exec_subnReg (x y : Nibble) (s : State) : exec (.subnReg x y) s =
    .next ((s.setFlag (strictlyGreater (s.getV y) (s.getV x))).setV x (s.getV y - s.getV x)) := rfl

theorem exec_shr (x y : Nibble) (s : State) : exec (.shr x y) s =
    .next ((s.setFlag (lowBit (s.getV x))).setV x (s.getV x >>> 1)) := rfl

theorem exec_shl (x y : Nibble) (s : State) : exec (.shl x y) s =
    .next ((s.setFlag (highBit (s.getV x))).setV x (s.getV x <<< 1)) := rfl

theorem exec_rnd (x : Nibble) (kk : Byte) (s : State) :
    exec (.rnd x kk) s = .next (rndWith (Config.randomByte s.draws) x kk s) := rfl

theorem exec_ldVxK (x : Nibble) (s : State) : exec (.ldVxK x) s = .next (s.beginWait x) := rfl

theorem exec_addIVx (x : Nibble) (s : State) :
    exec (.addIVx x) s = .next (s.setI (s.i + byteOperand (s.getV x))) := rfl

/-! ## What the remaining updates leave -/

theorem State.drawn_onlyChanges (s : State) : OnlyChanges [.draws] s s.drawn := by
  intro p hp
  cases p
  case draws => exact absurd (List.mem_singleton.mpr rfl) hp
  all_goals simp [Part.Same]

theorem State.beginWait_onlyChanges (s : State) (x : Nibble) : OnlyChanges [.wait, .wx] s (s.beginWait x) := by
  intro p hp
  cases p
  case wait | wx => simp at hp
  all_goals simp [Part.Same]

theorem rndWith_onlyChanges (byte : Byte) (x : Nibble) (kk : Byte) (s : State) :
    OnlyChanges [.v, .draws] s (rndWith byte x kk s) :=
  (s.setV_onlyChanges x _).trans (State.drawn_onlyChanges _)

theorem setFlag_setV_onlyChanges (s : State) (f : Bool) (x : Nibble) (b : Byte) :
    OnlyChanges [.v] s ((s.setFlag f).setV x b) :=
  ((s.setFlag_onlyChanges f).trans (State.setV_onlyChanges _ x b)).mono (by decide)

theorem setPix_setFlag_onlyChanges (s : State) (p : Pixels) (f : Bool) :
    OnlyChanges [.v, .pix] s ((s.setPix p).setFlag f) :=
  ((s.setPix_onlyChanges p).trans (State.setFlag_onlyChanges _ f)).mono (by decide)

/-- What a pop from a stack that is not empty leaves (rules R30, R120): the top of the stack is answered, SP is one less,
and no slot is written. -/
theorem State.pop_spec (s : State) (h : 0 < s.sp.val) :
    ∃ w t, s.pop = .ok (w, t) ∧ s.stack[s.sp.val - 1]? = some w ∧ t.sp.val = s.sp.val - 1 ∧ t.stack = s.stack ∧
      OnlyChanges [.sp] s t := by
  refine ⟨_, _, s.pop_ok h.ne', Vector.getElem?_eq_getElem _, rfl, rfl, fun p hp => ?_⟩
  cases p
  case sp => exact absurd (List.mem_singleton.mpr rfl) hp
  case v | mem | key => exact fun _ => rfl
  case pix => exact fun _ _ => rfl
  all_goals rfl

/-- A pop that goes through found a return address. -/
theorem State.sp_pos_of_pop {s : State} {p : Word × State} (h : s.pop = .ok p) : 0 < s.sp.val := by
  refine Nat.pos_of_ne_zero fun hempty => ?_
  rw [s.pop_error hempty] at h
  cases h

/-- A push that goes through found room. -/
theorem State.sp_lt_of_push {s t : State} {w : Word} (h : s.push w = .ok t) : s.sp.val < 16 := by
  refine Decidable.byContradiction fun hfull => ?_
  rw [s.push_error w hfull] at h
  cases h

theorem State.pop_onlyChanges {s : State} {p : Word × State} (h : s.pop = .ok p) : OnlyChanges [.sp] s p.2 := by
  obtain ⟨w, t, hpop, -, -, -, hframe⟩ := s.pop_spec (State.sp_pos_of_pop h)
  obtain rfl : (w, t) = p := Except.ok.inj (hpop.symm.trans h)
  exact hframe

theorem State.push_onlyChanges {s t : State} {w : Word} (h : s.push w = .ok t) : OnlyChanges [.sp, .stack] s t := by
  obtain ⟨t', hpush, -, -, -, hframe⟩ := s.push_spec w (State.sp_lt_of_push h)
  obtain rfl : t' = t := Except.ok.inj (hpush.symm.trans h)
  exact hframe

/-! ## The frame of an instruction -/

/-- A guarded operation whose answer has no fault latched went through. -/
theorem State.attempt_unfaulted {s t : State} {α : Type} {r : Except Fault α}
    {k : α → Host.Outcome State Fault Refusal} (h : s.attempt r k = .next t) (hf : t.fault = none) :
    ∃ a, r = .ok a ∧ k a = .next t := by
  rcases State.attempt_cases h with hok | ⟨c, -, rfl⟩
  · exact hok
  · rw [s.takeFault_fault] at hf
    cases hf

/-- The pieces of state an instruction may change when it raises no fault (rule R20, the "written by" column). -/
def changedParts : Instr → List Part
  | .cls => [.pix]
  | .drw _ _ _ => [.v, .pix]
  | .ret => [.pc, .sp]
  | .call _ => [.pc, .sp, .stack]
  | .jp _ | .jpV0 _ | .seImm _ _ | .sneImm _ _ | .seReg _ _ | .sneReg _ _ | .skp _ | .sknp _ => [.pc]
  | .ldImm _ _ | .addImm _ _ | .ldReg _ _ | .orReg _ _ | .andReg _ _ | .xorReg _ _ | .addReg _ _ | .subReg _ _
  | .shr _ _ | .subnReg _ _ | .shl _ _ | .ldVxDt _ | .ldVxMem _ => [.v]
  | .rnd _ _ => [.v, .draws]
  | .ldI _ | .addIVx _ | .ldFVx _ => [.i]
  | .ldVxK _ => [.wait, .wx]
  | .ldDtVx _ => [.dt]
  | .ldStVx _ => [.st]
  | .ldBVx _ | .ldMemVx _ => [.mem]

/-- Each arm is one update, or two, or a checked operation followed by them, and takes its frame from theirs. -/
theorem exec_onlyChanges {i : Instr} {s t : State} (h : exec i s = .next t) (hf : t.fault = none) :
    OnlyChanges (changedParts i) s t := by
  cases i
  case cls => cases h; exact s.setPix_onlyChanges _
  case jp | jpV0 => cases h; exact s.setPc_onlyChanges _
  case seImm | sneImm | seReg | sneReg => cases h; exact s.skipIf_onlyChanges _
  case ldImm | addImm | ldReg | orReg | andReg | xorReg | ldVxDt => cases h; exact s.setV_onlyChanges _ _
  case addReg =>
    cases h
    exact ((s.setV_onlyChanges _ _).trans (State.setFlag_onlyChanges _ _)).mono (by simp [changedParts])
  case subReg | subnReg | shr | shl => cases h; exact setFlag_setV_onlyChanges s _ _ _
  case rnd => cases h; exact rndWith_onlyChanges _ _ _ s
  case ldI | addIVx | ldFVx => cases h; exact s.setI_onlyChanges _
  case ldVxK => cases h; exact s.beginWait_onlyChanges _
  case ldDtVx => cases h; exact s.setDt_onlyChanges _
  case ldStVx => cases h; exact s.setSt_onlyChanges _
  case ret =>
    obtain ⟨p, hpop, hk⟩ := State.attempt_unfaulted h hf
    cases hk
    exact ((State.pop_onlyChanges hpop).trans (State.setPc_onlyChanges _ _)).mono (by decide)
  case call =>
    obtain ⟨u, hpush, hk⟩ := State.attempt_unfaulted h hf
    cases hk
    exact ((State.push_onlyChanges hpush).trans (State.setPc_onlyChanges _ _)).mono (by simp [changedParts])
  case skp | sknp =>
    obtain ⟨k, -, hk⟩ := State.attempt_unfaulted h hf
    cases hk
    exact s.skipIf_onlyChanges _
  case drw =>
    obtain ⟨rows, -, hk⟩ := State.attempt_unfaulted h hf
    cases hk
    exact setPix_setFlag_onlyChanges s _ _
  case ldBVx | ldMemVx =>
    obtain ⟨m, -, hk⟩ := State.attempt_unfaulted h hf
    cases hk
    exact s.setMem_onlyChanges m
  case ldVxMem =>
    obtain ⟨bs, -, hk⟩ := State.attempt_unfaulted h hf
    cases hk
    exact s.loadRegs_onlyChanges 0 bs

/-! ## The writers of each piece of state, read off the table -/

theorem key_notMem_changedParts (i : Instr) : Part.key ∉ changedParts i := by
  cases i <;> simp [changedParts]

theorem mem_mem_changedParts {i : Instr} (h : Part.mem ∈ changedParts i) :
    (∃ x, i = .ldBVx x) ∨ ∃ x, i = .ldMemVx x := by cases i <;> simp [changedParts] at h ⊢

theorem pix_mem_changedParts {i : Instr} (h : Part.pix ∈ changedParts i) :
    i = .cls ∨ ∃ x y n, i = .drw x y n := by cases i <;> simp [changedParts] at h ⊢

theorem dt_mem_changedParts {i : Instr} (h : Part.dt ∈ changedParts i) : ∃ x, i = .ldDtVx x := by
  cases i <;> simp [changedParts] at h ⊢

theorem st_mem_changedParts {i : Instr} (h : Part.st ∈ changedParts i) : ∃ x, i = .ldStVx x := by
  cases i <;> simp [changedParts] at h ⊢

theorem stack_mem_changedParts {i : Instr} (h : Part.sp ∈ changedParts i ∨ Part.stack ∈ changedParts i) :
    i = .ret ∨ ∃ nnn, i = .call nnn := by cases i <;> simp [changedParts] at h ⊢

theorem wait_mem_changedParts {i : Instr} (h : Part.wait ∈ changedParts i ∨ Part.wx ∈ changedParts i) :
    ∃ x, i = .ldVxK x := by cases i <;> simp [changedParts] at h ⊢

theorem i_mem_changedParts {i : Instr} (h : Part.i ∈ changedParts i) :
    (∃ nnn, i = .ldI nnn) ∨ (∃ x, i = .addIVx x) ∨ ∃ x, i = .ldFVx x := by cases i <;> simp [changedParts] at h ⊢

/-- Settles O41: memory is among the changed parts of the two stores alone. -/
theorem onlyStoresWriteMemory : Obligations.OnlyStoresWriteMemory := by
  intro i s t h hf hdigits hregs
  refine exec_onlyChanges h hf .mem fun hmem => ?_
  rcases mem_mem_changedParts hmem with ⟨x, hi⟩ | ⟨x, hi⟩
  · exact hdigits x hi
  · exact hregs x hi

/-- Settles O42: one clause for each part, from the instructions that have it among their changed parts. -/
theorem eachDeviceHasItsOwnWriters : Obligations.EachDeviceHasItsOwnWriters := by
  intro i s t h hf
  have hframe := exec_onlyChanges h hf
  refine ⟨hframe .key (key_notMem_changedParts i), fun hcls hdrw => Pixels.ext_get (hframe .pix fun hp => ?pix),
    fun hx => hframe .dt fun hp => ?dt, fun hx => hframe .st fun hp => ?st,
    fun hret hcall => ⟨hframe .stack fun hp => ?stack, hframe .sp fun hp => ?sp⟩,
    fun hx => ⟨hframe .wait fun hp => ?wait, hframe .wx fun hp => ?wx⟩,
    fun hldI hadd hldF => hframe .i fun hp => ?i⟩
  case pix => exact (pix_mem_changedParts hp).elim hcls fun ⟨x, y, n, hi⟩ => hdrw x y n hi
  case dt => exact (dt_mem_changedParts hp).elim hx
  case st => exact (st_mem_changedParts hp).elim hx
  case stack => exact (stack_mem_changedParts (.inr hp)).elim hret fun ⟨nnn, hi⟩ => hcall nnn hi
  case sp => exact (stack_mem_changedParts (.inl hp)).elim hret fun ⟨nnn, hi⟩ => hcall nnn hi
  case wait => exact (wait_mem_changedParts (.inl hp)).elim hx
  case wx => exact (wait_mem_changedParts (.inr hp)).elim hx
  case i =>
    rcases i_mem_changedParts hp with ⟨nnn, hi⟩ | ⟨x, hi⟩ | ⟨x, hi⟩
    · exact hldI nnn hi
    · exact hadd x hi
    · exact hldF x hi

/-! ## The registers an instruction writes -/

/-- A load of registers leaves those above the last one loaded. -/
theorem State.getV_loadRegs_above (s : State) {bs : List Byte} (hfit : bs.length ≤ 16) {r : Nibble}
    (h : bs.length ≤ r.toNat) : (s.loadRegs 0 bs).getV r = s.getV r := by
  rw [s.getV_loadRegs bs 0 (by omega), if_neg (by omega)]

/-- The bytes a checked read answers are as many as were asked for. -/
theorem memReadBytes_length {m : Memory} {base n : Nat} {bs : List Byte} (h : memReadBytes m base n = .ok bs) :
    bs.length = n := by
  rw [memReadBytes_eq] at h
  split at h
  · cases h; simp
  · cases h

theorem getV_setFlag_setV_ne (s : State) (f : Bool) (b : Byte) {x r : Nibble} (hx : r ≠ x) (hvf : r ≠ vf) :
    ((s.setFlag f).setV x b).getV r = s.getV r := by
  rw [State.getV_setV_ne _ _ hx, s.getV_setFlag_ne _ hvf]

/-- Settles O43: an instruction without V among its changed parts writes no register; the others write Vx, VF, or the
run from V0 to Vx. -/
theorem onlyListedRegistersAreWritten : Obligations.OnlyListedRegistersAreWritten := by
  intro i s t r h hf hw
  cases i
  case ldImm | addImm | ldReg | orReg | andReg | xorReg | rnd | ldVxDt =>
    simp only [writesReg, beq_eq_false_iff_ne] at hw
    cases h
    exact s.getV_setV_ne _ hw
  case addReg =>
    simp only [writesReg, Bool.or_eq_false_iff, beq_eq_false_iff_ne] at hw
    cases h
    rw [State.getV_setFlag_ne _ _ hw.2, s.getV_setV_ne _ hw.1]
  case subReg | subnReg | shr | shl =>
    simp only [writesReg, Bool.or_eq_false_iff, beq_eq_false_iff_ne] at hw
    cases h
    exact getV_setFlag_setV_ne s _ _ hw.1 hw.2
  case drw =>
    simp only [writesReg, beq_eq_false_iff_ne] at hw
    obtain ⟨rows, -, hk⟩ := State.attempt_unfaulted h hf
    cases hk
    exact State.getV_setFlag_ne _ _ hw
  case ldVxMem x =>
    simp only [writesReg, decide_eq_false_iff_not] at hw
    obtain ⟨bs, hread, hk⟩ := State.attempt_unfaulted h hf
    cases hk
    have hlen := memReadBytes_length hread
    have hx : x.toNat < 16 := x.isLt
    exact s.getV_loadRegs_above (by omega) (by omega)
  all_goals exact exec_onlyChanges h hf .v (by simp [changedParts]) r

end Sys2Proof.Machine
end

section
/-! PROOFS. The faults an instruction can raise (spec/60_exceptions.md rules R200 to R208) and the totality of the step.
Every arm of `exec` is an update, or a checked operation followed by one, so its fault is the operation's. -/

namespace Sys2Proof.Machine

/-- The fault a checked operation answers, if any. -/
def faultOf {α : Type} : Except Fault α → Option Fault
  | .ok _ => none
  | .error c => some c

/-- A checked operation followed by an update that latches nothing leaves FAULT as the operation says. -/
theorem State.attempt_fault {α : Type} (s : State) {r : Except Fault α} {f : α → State}
    (hok : ∀ a, r = .ok a → (f a).fault = none) :
    ∃ t, s.attempt r (fun a => .next (f a)) = .next t ∧ t.fault = faultOf r := by
  cases r with
  | ok a => exact ⟨f a, rfl, hok a rfl⟩
  | error c => exact ⟨s.takeFault c, rfl, rfl⟩

theorem State.faultOf_pop (s : State) :
    faultOf s.pop = if s.sp.val = 0 then some (.stackFault .underflow) else none := by
  split
  · rw [s.pop_error ‹_›, faultOf]
  · rw [s.pop_ok ‹_›, faultOf]

theorem State.faultOf_push (s : State) (w : Word) :
    faultOf (s.push w) = if s.sp.val = 16 then some (.stackFault .overflow) else none := by
  split
  · rw [s.push_error w (by omega), faultOf]
  · rw [s.push_ok w (by omega), faultOf]

theorem faultOf_keyIndex (s : State) (x : Nibble) : faultOf (keyIndex (s.getV x)) = keyFault s x := by
  unfold keyFault
  split
  · rw [keyIndex_ok ‹_›, faultOf]
  · rw [keyIndex_error (by omega), faultOf]

theorem faultOf_memReadBytes (s : State) (n : Nat) :
    faultOf (memReadBytes s.mem (s.dataAddr 0) n) = accessFault s n := by
  rw [memReadBytes_eq, accessFault]
  change faultOf (if n = 0 ∨ s.i.toNat + n ≤ 4096 then _ else _) = _
  split <;> rfl

theorem faultOf_memWriteBytes (s : State) (bs : List Byte) :
    faultOf (memWriteBytes s.mem (s.dataAddr 0) bs) = accessFault s bs.length := by
  simp only [memWriteBytes_eq, accessFault, List.length_eq_zero_iff]
  change faultOf (if bs = [] ∨ s.i.toNat + bs.length ≤ 4096 then _ else _) = _
  split <;> rfl

/-- Settles O38: the arms with a check take the fault of the checked operation, and the others only update the state. -/
theorem eachInstructionRaisesOnlyItsOwnFault : Obligations.EachInstructionRaisesOnlyItsOwnFault := by
  intro i s hs
  cases i
  case ret =>
    rw [exec_ret, raisedFault, ← s.faultOf_pop]
    exact s.attempt_fault fun p hp => Eq.trans (State.pop_onlyChanges hp .fault (by decide)) hs
  case call nnn =>
    rw [exec_call, raisedFault, ← s.faultOf_push s.pc]
    exact s.attempt_fault fun t ht => Eq.trans (State.push_onlyChanges ht .fault (by decide)) hs
  case skp x | sknp x =>
    rw [raisedFault, ← faultOf_keyIndex]
    exact s.attempt_fault fun k _ => (s.skipIf_fault _).trans hs
  case drw x y n =>
    rw [raisedFault, ← faultOf_memReadBytes]
    exact s.attempt_fault fun rows _ => hs
  case ldBVx x =>
    rw [raisedFault, ← bcdDigits_length (s.getV x), ← faultOf_memWriteBytes]
    exact s.attempt_fault fun m _ => hs
  case ldMemVx x =>
    rw [raisedFault, ← s.firstRegs_length x, ← faultOf_memWriteBytes]
    exact s.attempt_fault fun m _ => hs
  case ldVxMem x =>
    rw [raisedFault, ← faultOf_memReadBytes]
    exact s.attempt_fault fun bs _ => Eq.trans (s.loadRegs_onlyChanges 0 bs .fault (by decide)) hs
  case seImm | sneImm | seReg | sneReg => exact ⟨_, rfl, (s.skipIf_fault _).trans hs⟩
  all_goals exact ⟨_, rfl, hs⟩

/-! ## Every step has an answer -/

/-- A step answers a next state when every instruction does. -/
theorem State.stepBy_next (s : State) {run : Instr → State → Host.Outcome State Fault Refusal}
    (hrun : ∀ i u, u.fault = none → ∃ t, run i u = .next t) : ∃ t, s.stepBy run = .next t := by
  by_cases hf : s.fault = none
  · cases hw : s.wait with
    | true => exact ⟨s, s.stepBy_hold run hf hw⟩
    | false =>
      rw [s.stepBy_run run hf hw]
      exact s.attempt_next _ fun w => s.attempt_next _ fun i => hrun i s.advancePc hf
  · exact ⟨s, s.stepBy_faulted run hf⟩

theorem exec_next (i : Instr) {s : State} (hf : s.fault = none) : ∃ t, exec i s = .next t := by
  obtain ⟨t, ht, -⟩ := eachInstructionRaisesOnlyItsOwnFault i s hf
  exact ⟨t, ht⟩

/-- The input byte enters by Cxkk alone (rule R153). -/
theorem execWith_cases (byte : Byte) (i : Instr) (s : State) :
    execWith byte i s = exec i s ∨ ∃ x kk, i = .rnd x kk ∧ execWith byte i s = .next (rndWith byte x kk s) := by
  by_cases h : ∃ x kk, i = .rnd x kk
  · obtain ⟨x, kk, rfl⟩ := h
    exact .inr ⟨x, kk, rfl, execWith_rnd s byte x kk⟩
  · exact .inl (execWith_eq_exec s byte fun x kk hi => h ⟨x, kk, hi⟩)

theorem execWith_next (byte : Byte) (i : Instr) {s : State} (hf : s.fault = none) :
    ∃ t, execWith byte i s = .next t := by
  rcases execWith_cases byte i s with h | ⟨x, kk, -, h⟩
  · rw [h]; exact exec_next i hf
  · exact ⟨_, h⟩

theorem stepWith_next (byte : Byte) (s : State) : ∃ t, stepWith byte s = .next t :=
  s.stepBy_next fun i _ hu => execWith_next byte i hu

/-- Settles O35: a hold and a raised fault are next states, and so is what every instruction answers. -/
theorem stepAlwaysAnswersNext : Obligations.StepAlwaysAnswersNext := fun s =>
  ⟨s.stepBy_next fun i _ hu => exec_next i hu, fun byte => stepWith_next byte s⟩

end Sys2Proof.Machine
end

section
/-! PROOFS. The two invariants of the step: memory in canonical form, and PC and the live return addresses in their
ranges (spec/10_state.md rules R26, R30). Both are kept by whatever a step does; `stepBy_keeps` says so once for a step
with and without an input byte. -/

namespace Sys2Proof.Machine

/-- A predicate that a taken fault has, and that a running instruction gives from any state it may be fetched in, is kept
by the step. -/
theorem State.stepBy_keeps {P : State → Prop} {run : Instr → State → Host.Outcome State Fault Refusal}
    (hfault : ∀ (s : State) c, P (s.takeFault c))
    (hrun : ∀ (s : State) i t, P s → s.fault = none → s.pc.toNat + 1 < memSize → run i s.advancePc = .next t → P t)
    {s t : State} (hs : P s) (h : s.stepBy run = .next t) : P t := by
  rcases State.stepBy_cases h with ⟨rfl, -⟩ | ⟨-, -, c, rfl⟩ | ⟨hf, -, hpc, w, i, -, -, hexec⟩
  · exact hs
  · exact hfault s c
  · exact hrun s i t hs hf hpc hexec

/-! ## Canonical memory -/

/-- A checked operation followed by an update leaves memory canonical if the update does; a taken fault always does. -/
theorem State.attempt_mem_wf {α : Type} {s t : State} {r : Except Fault α} {f : α → State}
    (h : s.attempt r (fun a => .next (f a)) = .next t) (hok : ∀ a, r = .ok a → (f a).mem.wf = true) :
    t.mem.wf = true := by
  rcases State.attempt_cases h with ⟨a, ha, hk⟩ | ⟨c, -, rfl⟩
  · cases hk; exact hok a ha
  · exact s.takeFault_mem_wf c

theorem State.mem_of_pop {s : State} {p : Word × State} (h : s.pop = .ok p) : p.2.mem = s.mem := by
  rw [← Except.ok.inj ((s.pop_ok (State.sp_pos_of_pop h).ne').symm.trans h)]

theorem State.mem_of_push {s t : State} {w : Word} (h : s.push w = .ok t) : t.mem = s.mem := by
  rw [← Except.ok.inj ((s.push_ok w (State.sp_lt_of_push h)).symm.trans h)]

theorem State.loadRegs_mem (s : State) (k : Nat) (bs : List Byte) : (s.loadRegs k bs).mem = s.mem := by
  obtain ⟨v, hv⟩ := s.loadRegs_eq bs k
  rw [hv]

/-- The two stores write by checked writes, and no other instruction puts anything in MEM. -/
theorem exec_mem_wf {i : Instr} {s t : State} (hwf : s.mem.wf = true) (h : exec i s = .next t) :
    t.mem.wf = true := by
  cases i
  case ldBVx | ldMemVx => exact State.attempt_mem_wf h fun m hm => memWriteBytes_wf hm hwf
  case ret => exact State.attempt_mem_wf h fun p hp => (congrArg Memory.wf (State.mem_of_pop hp)).trans hwf
  case call => exact State.attempt_mem_wf h fun u hu => (congrArg Memory.wf (State.mem_of_push hu)).trans hwf
  case skp | sknp => exact State.attempt_mem_wf h fun k _ => (congrArg Memory.wf (s.skipIf_mem _)).trans hwf
  case drw => exact State.attempt_mem_wf h fun rows _ => hwf
  case ldVxMem => exact State.attempt_mem_wf h fun bs _ => (congrArg Memory.wf (s.loadRegs_mem 0 bs)).trans hwf
  case seImm | sneImm | seReg | sneReg => cases h; rw [State.skipIf_mem]; exact hwf
  all_goals cases h; exact hwf

theorem execWith_mem_wf {byte : Byte} {i : Instr} {s t : State} (hwf : s.mem.wf = true)
    (h : execWith byte i s = .next t) : t.mem.wf = true := by
  rcases execWith_cases byte i s with he | ⟨x, kk, -, he⟩
  · exact exec_mem_wf hwf (he.symm.trans h)
  · rw [he] at h; cases h; exact hwf

theorem stepBy_mem_wf {run : Instr → State → Host.Outcome State Fault Refusal}
    (hrun : ∀ {i : Instr} {s t : State}, s.mem.wf = true → run i s = .next t → t.mem.wf = true) {s t : State}
    (hs : s.mem.wf = true) (h : s.stepBy run = .next t) : t.mem.wf = true :=
  State.stepBy_keeps (P := fun u => u.mem.wf = true) State.takeFault_mem_wf 
    (fun u _ _ hwf _ _ he => hrun (s := u.advancePc) hwf he) hs h

/-- Settles O50: a hold changes nothing, a taken fault canonicalises, and an instruction keeps the form. -/
theorem stepKeepsMemoryCanonical : Obligations.StepKeepsMemoryCanonical :=
  fun _ _ hwf h => stepBy_mem_wf exec_mem_wf hwf h

/-! ## Control in range -/

/-- Every live return address is at most 0x1000, the address past the last one a word can be fetched from. -/
def State.StackInRange (s : State) : Prop := ∀ j : Fin 16, j.val < s.sp.val → s.stack[j.val].toNat ≤ 0x1000

theorem State.StackInRange.of_same {s t : State} (h : s.StackInRange) (hsp : t.sp = s.sp) (hstack : t.stack = s.stack) :
    t.StackInRange := by
  unfold State.StackInRange
  rw [hsp, hstack]
  exact h

theorem addrOperand_toNat_lt (nnn : Addr12) : (addrOperand nnn).toNat < 4096 := by
  rw [addrOperand_toNat]
  exact nnn.isLt

@[simp] theorem byteOperand_toNat (b : Byte) : (byteOperand b).toNat = b.toNat :=
  BitVec.toNat_setWidth_of_le (by decide)

/-- The sum of Bnnn needs 13 bits at most, so nothing wraps (rule R123). -/
theorem offsetTarget_toNat (nnn : Addr12) (b : Byte) :
    (addrOperand nnn + byteOperand b).toNat = nnn.toNat + b.toNat := by
  have hnnn : nnn.toNat < 4096 := nnn.isLt
  have hb : b.toNat < 256 := b.isLt
  rw [BitVec.toNat_add, addrOperand_toNat, byteOperand_toNat]
  omega

theorem add_two_toNat_le (w : Word) : (w + 2).toNat ≤ w.toNat + 2 := by
  rw [BitVec.toNat_add]
  exact Nat.mod_le _ _

theorem State.skipIf_pc_le (s : State) (c : Bool) : (s.skipIf c).pc.toNat ≤ s.pc.toNat + 2 := by
  have hadd := add_two_toNat_le s.pc
  rw [State.skipIf_pc]
  split <;> omega

/-- The top of a stack in range, and the stack below it. -/
theorem State.StackInRange.pop {s : State} {p : Word × State} (h : s.StackInRange) (hpop : s.pop = .ok p) :
    p.1.toNat ≤ 0x1000 ∧ p.2.StackInRange := by
  have hpos := State.sp_pos_of_pop hpop
  obtain ⟨w, t, hok, htop, hsp, hstack, -⟩ := s.pop_spec hpos
  obtain rfl : (w, t) = p := Except.ok.inj (hok.symm.trans hpop)
  obtain ⟨hlt, rfl⟩ := Vector.getElem?_eq_some_iff.mp htop
  refine ⟨h ⟨s.sp.val - 1, hlt⟩ (Nat.sub_lt hpos Nat.one_pos), fun j hj => ?_⟩
  have hlive : j.val < t.sp.val := hj
  have hbelow := h j (by omega)
  simpa only [hstack] using hbelow

/-- A stack in range with one more return address in range. -/
theorem State.StackInRange.push {s t : State} {w : Word} (h : s.StackInRange) (hw : w.toNat ≤ 0x1000)
    (hpush : s.push w = .ok t) : t.StackInRange := by
  obtain ⟨t', hok, hsp, htop, hbelow, -⟩ := s.push_spec w (State.sp_lt_of_push hpush)
  obtain rfl : t' = t := Except.ok.inj (hok.symm.trans hpush)
  obtain ⟨_, htop⟩ := Vector.getElem?_eq_some_iff.mp htop
  intro j hj
  by_cases hlast : j.val = s.sp.val
  · simpa only [hlast, htop] using hw
  · rw [hbelow j (by omega)]
    exact h j (by omega)

/-- An instruction run with PC at most 0x1000: 00EE gives a live return address, 1nnn and 2nnn a 12-bit address, Bnnn at
most 0xFFF + 0xFF, a skip at most two more; no other instruction writes PC, and 2nnn pushes a PC in range. -/
theorem exec_controlInRange {i : Instr} {s t : State} (hpc : s.pc.toNat ≤ 0x1000) (hstack : s.StackInRange)
    (h : exec i s = .next t) (hf : t.fault = none) : t.pc.toNat ≤ 0x10FE ∧ t.StackInRange := by
  have hframe := exec_onlyChanges h hf
  cases i
  case ret =>
    obtain ⟨p, hpop, hk⟩ := State.attempt_unfaulted h hf
    cases hk
    obtain ⟨htop, hbelow⟩ := hstack.pop hpop
    exact ⟨htop.trans (by decide), hbelow⟩
  case call nnn =>
    obtain ⟨u, hpush, hk⟩ := State.attempt_unfaulted h hf
    cases hk
    have hpushed := (hstack.push hpc hpush).of_same (u.setPc_sp (addrOperand nnn)) (u.setPc_stack _)
    exact ⟨(addrOperand_toNat_lt nnn).le.trans (by decide), hpushed⟩
  case jp nnn =>
    cases h
    exact ⟨(addrOperand_toNat_lt nnn).le.trans (by decide), hstack⟩
  case jpV0 nnn =>
    cases h
    have hnnn : nnn.toNat < 4096 := nnn.isLt
    have hv0 : (s.getV 0).toNat < 256 := (s.getV 0).isLt
    refine ⟨?_, hstack⟩
    rw [State.setPc_pc, offsetTarget_toNat]
    omega
  case seImm | sneImm | seReg | sneReg =>
    cases h
    exact ⟨(s.skipIf_pc_le _).trans (by omega), hstack.of_same (s.skipIf_sp _) (s.skipIf_stack _)⟩
  case skp | sknp =>
    obtain ⟨k, -, hk⟩ := State.attempt_unfaulted h hf
    cases hk
    exact ⟨(s.skipIf_pc_le _).trans (by omega), hstack.of_same (s.skipIf_sp _) (s.skipIf_stack _)⟩
  all_goals
    have hsame : t.pc = s.pc := hframe .pc (by simp [changedParts])
    refine ⟨?_, hstack.of_same (hframe .sp (by simp [changedParts])) (hframe .stack (by simp [changedParts]))⟩
    rw [hsame]
    omega

theorem execWith_controlInRange {byte : Byte} {i : Instr} {s t : State} (hpc : s.pc.toNat ≤ 0x1000)
    (hstack : s.StackInRange) (h : execWith byte i s = .next t) (hf : t.fault = none) :
    t.pc.toNat ≤ 0x10FE ∧ t.StackInRange := by
  rcases execWith_cases byte i s with he | ⟨x, kk, -, he⟩
  · exact exec_controlInRange hpc hstack (he.symm.trans h) hf
  · rw [he] at h
    cases h
    exact ⟨hpc.trans (by decide), hstack⟩

/-- A word is fetched below 4096, so PC is at most 0x1000 when the instruction runs. -/
theorem stepBy_controlInRange {run : Instr → State → Host.Outcome State Fault Refusal}
    (hrun : ∀ {i : Instr} {s t : State}, s.pc.toNat ≤ 0x1000 → s.StackInRange → run i s = .next t → t.fault = none →
      t.pc.toNat ≤ 0x10FE ∧ t.StackInRange) {s t : State}
    (hs : s.ControlInRange) (h : s.stepBy run = .next t) : t.ControlInRange := by
  refine State.stepBy_keeps (P := State.ControlInRange) (fun s c hf => ?fault) (fun s i t hs hf hpc he => ?run) hs h
  case fault =>
    rw [s.takeFault_fault] at hf
    cases hf
  case run =>
    obtain ⟨-, hstack⟩ := hs hf
    have hadd := add_two_toNat_le s.pc
    have hfetch : s.pc.toNat + 1 < 4096 := hpc
    have hadvanced : s.advancePc.pc.toNat ≤ 0x1000 := by
      rw [State.advancePc_pc]
      omega
    exact hrun hadvanced hstack he

/-- Settles O51: an instruction runs with PC at most 0x1000 and keeps both ranges; a taken fault leaves nothing to say. -/
theorem stepKeepsControlInRange : Obligations.StepKeepsControlInRange :=
  fun _ _ hs h => stepBy_controlInRange exec_controlInRange hs h

end Sys2Proof.Machine
end

section
/-! PROOFS. Schedules of the host's moves (spec/60_exceptions.md rule R214). An induction over a finite schedule is done
once, `runMoves_keeps`; each statement over schedules is then one fact about each kind of move. -/

namespace Sys2Proof.Machine

/-- If each move of the schedule answers a next state and keeps `P`, so does the schedule. -/
theorem runMoves_keeps {P : State → Prop} {ms : List Move}
    (hmove : ∀ m ∈ ms, ∀ s, P s → ∃ t, applyMove s m = .next t ∧ P t) {s : State} (hs : P s) :
    ∃ t, runMoves s ms = .next t ∧ P t := by
  induction ms generalizing s with
  | nil => exact ⟨s, rfl, hs⟩
  | cons m ms ih =>
    obtain ⟨t, ht, hPt⟩ := hmove m (List.mem_cons_self ..) s hs
    obtain ⟨u, hu, hPu⟩ := ih (fun m' hm' => hmove m' (List.mem_cons_of_mem _ hm')) hPt
    refine ⟨u, ?_, hPu⟩
    rw [runMoves, ht]
    exact hu

/-! ## What a key write and a tick leave -/

/-- A press while the core is parked and not faulted (rules R185, R217). -/
theorem State.keyWrite_delivers {s : State} (k : Nibble) (hw : s.wait = true) (hf : s.fault = none) :
    s.keyWrite k true = (s.setKey k true).deliverKey k := by
  simp [State.keyWrite, hw, hf]

/-- Every other key write (rules R185, R217). -/
theorem State.keyWrite_sets {s : State} (k : Nibble) {b : Bool} (h : b = false ∨ s.wait = false ∨ s.fault ≠ none) :
    s.keyWrite k b = s.setKey k b := by
  refine if_neg ?_
  rcases h with rfl | hw | hf
  · simp
  · simp [hw]
  · simp [hf]

theorem State.keyWrite_cases (s : State) (k : Nibble) (b : Bool) :
    s.keyWrite k b = (s.setKey k b).deliverKey k ∨ s.keyWrite k b = s.setKey k b := by
  unfold State.keyWrite
  split
  · exact .inl rfl
  · exact .inr rfl

theorem State.setKey_onlyChanges (s : State) (k : Nibble) (b : Bool) : OnlyChanges [.key] s (s.setKey k b) := by
  intro p hp
  cases p
  case key => exact absurd (List.mem_singleton.mpr rfl) hp
  all_goals simp [Part.Same]

theorem State.deliverKey_onlyChanges (s : State) (k : Nibble) : OnlyChanges [.v, .wait] s (s.deliverKey k) := by
  intro p hp
  cases p
  case v | wait => simp at hp
  all_goals simp [Part.Same]

theorem State.keyWrite_onlyChanges (s : State) (k : Nibble) (b : Bool) :
    OnlyChanges [.key, .v, .wait] s (s.keyWrite k b) := by
  rcases s.keyWrite_cases k b with h | h <;> rw [h]
  · exact (s.setKey_onlyChanges k b).trans (State.deliverKey_onlyChanges _ k)
  · exact (s.setKey_onlyChanges k b).mono (by decide)

theorem State.keyWrite_mem (s : State) (k : Nibble) (b : Bool) : (s.keyWrite k b).mem = s.mem := by
  rcases s.keyWrite_cases k b with h | h <;> rw [h] <;> rfl

theorem State.timerTick_onlyChanges (s : State) : OnlyChanges [.dt, .st] s s.timerTick :=
  (s.setDt_onlyChanges _).trans (State.setSt_onlyChanges _ _)

theorem State.timerTick_mem (s : State) : s.timerTick.mem = s.mem := rfl

theorem State.getKey_setKey_same (s : State) (k : Nibble) (b : Bool) : (s.setKey k b).getKey k = b := by
  rw [s.getKey_setKey, if_pos rfl]

theorem State.getKey_setKey_ne (s : State) {q k : Nibble} (b : Bool) (h : q ≠ k) :
    (s.setKey k b).getKey q = s.getKey q := by
  rw [s.getKey_setKey, if_neg h]

/-- Settles O31: the press is the write of the key followed by the delivery. -/
theorem awaitedKeyIsDelivered : Obligations.AwaitedKeyIsDelivered := by
  intro s k hw hf
  have hframe := s.keyWrite_onlyChanges k true
  rw [State.keyWrite_delivers k hw hf] at hframe ⊢
  refine ⟨s.getKey_setKey_same k true, fun q hq => s.getKey_setKey_ne true hq, ?delivered, fun r hr => ?others,
    State.deliverKey_wait _ k, hframe⟩
  case delivered =>
    rw [State.getV_deliverKey, if_pos (State.setKey_wx s k true).symm]
    exact BitVec.toNat_setWidth_of_le (by decide)
  case others => rw [State.getV_deliverKey, State.setKey_wx, if_neg hr, State.setKey_getV]

/-- Settles O32: in the three other cases the move is the write of the key alone. -/
theorem otherKeyWritesOnlySetKey : Obligations.OtherKeyWritesOnlySetKey := by
  intro s k b h
  rw [State.keyWrite_sets k h]
  exact ⟨s.getKey_setKey_same k b, fun q hq => s.getKey_setKey_ne b hq, s.setKey_onlyChanges k b⟩

/-! ## The two steps that change nothing -/

/-- A parked core holds, with a fault latched or without (rules R184, R207). -/
theorem State.stepBy_wait (s : State) (run : Instr → State → Host.Outcome State Fault Refusal) (hw : s.wait = true) :
    s.stepBy run = .next s := by
  by_cases hf : s.fault = none
  · exact s.stepBy_hold run hf hw
  · exact s.stepBy_faulted run hf

/-- Settles O29: the hold does not depend on how instructions are run. -/
theorem holdChangesNothing : Obligations.HoldChangesNothing := fun s hw =>
  ⟨s.stepBy_wait exec hw, fun byte => s.stepBy_wait (execWith byte) hw⟩

/-- What a parked core keeps until a key is pressed. -/
def HeldAs (s t : State) : Prop :=
  t.wait = true ∧ t.wx = s.wx ∧ t.pc = s.pc ∧ t.fault = s.fault ∧ ∀ r, t.getV r = s.getV r

/-- A change of keys and timers alone keeps what a parked core keeps. -/
theorem HeldAs.of_onlyChanges {s t u : State} (h : HeldAs s t) (hframe : OnlyChanges [.key, .dt, .st] t u) :
    HeldAs s u := by
  obtain ⟨hwait, hwx, hpc, hfault, hregs⟩ := h
  exact ⟨Eq.trans (hframe .wait (by decide)) hwait, Eq.trans (hframe .wx (by decide)) hwx,
    Eq.trans (hframe .pc (by decide)) hpc, Eq.trans (hframe .fault (by decide)) hfault,
    fun r => (hframe .v (by decide) r).trans (hregs r)⟩

/-- Settles O30: a step holds, a read changes nothing, and a tick and a release touch timers and keys alone. -/
theorem onlyKeyPressEndsWait : Obligations.OnlyKeyPressEndsWait := by
  intro ms s hwait hnopress
  refine runMoves_keeps (P := HeldAs s) (fun m hm t ht => ?_) ⟨hwait, rfl, rfl, rfl, fun _ => rfl⟩
  cases m with
  | step byte => exact ⟨t, t.stepBy_wait _ ht.1, ht⟩
  | keyWrite k b =>
    have hrelease : b = false := Bool.eq_false_iff.mpr fun hb => hnopress k (hb ▸ hm)
    refine ⟨_, rfl, ht.of_onlyChanges ?_⟩
    rw [State.keyWrite_sets k (.inl hrelease)]
    exact (t.setKey_onlyChanges k b).mono (by decide)
  | timerTick => exact ⟨_, rfl, ht.of_onlyChanges (t.timerTick_onlyChanges.mono (by decide))⟩
  | displayRead | timerRead | statusRead => exact ⟨t, rfl, ht⟩

/-- Settles O39: a step from a faulted state changes nothing and no other move writes FAULT. -/
theorem faultIsFinal : Obligations.FaultIsFinal := by
  intro ms s c hs
  have hne {t : State} (ht : t.fault = some c) : t.fault ≠ none := by rw [ht]; exact Option.some_ne_none c
  refine ⟨step_faulted s (hne hs), fun byte => s.stepBy_faulted _ (hne hs),
    runMoves_keeps (P := fun t => t.fault = some c) (fun m _ t ht => ?_) hs⟩
  cases m with
  | step byte => exact ⟨t, t.stepBy_faulted _ (hne ht), ht⟩
  | keyWrite k b => exact ⟨_, rfl, Eq.trans (t.keyWrite_onlyChanges k b .fault (by decide)) ht⟩
  | timerTick => exact ⟨_, rfl, ht⟩
  | displayRead | timerRead | statusRead => exact ⟨t, rfl, ht⟩

/-! ## Ticks -/

/-- One count down in numbers (rule R218). -/
theorem countDown_toNat (b : Byte) : (countDown b).toNat = b.toNat - 1 := by
  have hb : b.toNat < 256 := b.isLt
  unfold countDown
  split
  · bv_omega
  · omega

/-- Settles O33, by induction on the number of ticks. -/
theorem ticksCountDownToZero : Obligations.TicksCountDownToZero := by
  intro n
  induction n with
  | zero => exact fun s => ⟨s, rfl, rfl, rfl, fun p _ => Part.Same.rfl' p s⟩
  | succ n ih =>
    intro s
    obtain ⟨t, hrun, hdt, hst, hframe⟩ := ih s.timerTick
    refine ⟨t, hrun, ?_, ?_, (s.timerTick_onlyChanges.trans hframe).mono (by decide)⟩
    · rw [hdt, show s.timerTick.dt = countDown s.dt from rfl, countDown_toNat]
      omega
    · rw [hst, show s.timerTick.st = countDown s.st from rfl, countDown_toNat]
      omega

/-! ## The invariants along a schedule -/

/-- A move that leaves memory, PC, the stack and FAULT alone keeps both invariants. -/
theorem invariants_of_onlyChanges {s t : State} (hmem : t.mem = s.mem)
    (hframe : OnlyChanges [.key, .v, .wait, .dt, .st] s t) (h : s.mem.wf = true ∧ s.ControlInRange) :
    t.mem.wf = true ∧ t.ControlInRange := by
  obtain ⟨hwf, hrange⟩ := h
  refine ⟨by rw [hmem]; exact hwf, fun hf => ?_⟩
  have hfault : t.fault = s.fault := hframe .fault (by decide)
  have hpc : t.pc = s.pc := hframe .pc (by decide)
  obtain ⟨hpcRange, hstack⟩ := hrange (hfault.symm.trans hf)
  refine ⟨by rw [hpc]; exact hpcRange, ?_⟩
  exact State.StackInRange.of_same hstack (hframe .sp (by decide)) (hframe .stack (by decide))

theorem applyMove_keepsInvariants (m : Move) {s : State} (h : s.mem.wf = true ∧ s.ControlInRange) :
    ∃ t, applyMove s m = .next t ∧ t.mem.wf = true ∧ t.ControlInRange := by
  cases m with
  | step byte =>
    obtain ⟨hwf, hrange⟩ := h
    obtain ⟨t, ht⟩ := stepWith_next byte s
    exact ⟨t, ht, stepBy_mem_wf execWith_mem_wf hwf ht, stepBy_controlInRange execWith_controlInRange hrange ht⟩
  | keyWrite k b =>
    exact ⟨_, rfl, invariants_of_onlyChanges (s.keyWrite_mem k b) ((s.keyWrite_onlyChanges k b).mono (by decide)) h⟩
  | timerTick =>
    exact ⟨_, rfl, invariants_of_onlyChanges s.timerTick_mem (s.timerTick_onlyChanges.mono (by decide)) h⟩
  | displayRead | timerRead | statusRead => exact ⟨s, rfl, h⟩

/-- Settles O52: every move keeps both invariants, and the first n moves of an infinite schedule are a finite one. -/
theorem hostMovesKeepInvariants : Obligations.HostMovesKeepInvariants := by
  intro s hwf hrange
  have hfinite (ms : List Move) : ∃ t, runMoves s ms = .next t ∧ t.mem.wf = true ∧ t.ControlInRange :=
    runMoves_keeps (P := fun t => t.mem.wf = true ∧ t.ControlInRange) (fun m _ _ h => applyMove_keepsInvariants m h)
      ⟨hwf, hrange⟩
  refine ⟨hfinite, fun schedule n => ?_⟩
  rw [runForever_eq_runMoves]
  exact hfinite _

end Sys2Proof.Machine
end

section
/-! PROOFS. The step (spec/30_encoding.md rule R92): the instruction it runs, the fault of a fetch past memory, the jump
to itself, and the word placed where it fetches. -/

namespace Sys2Proof

/-- Two bytes decode to an instruction exactly when their word does; the rest is given back (rule R90). -/
theorem decode_cons_cons_iff {hi lo : Byte} {rest rest' : List Byte} {i : Instr} :
    decode (hi :: lo :: rest) = .ok (i, rest') ↔ decodeWord (wordOfBytes hi lo) = some i ∧ rest' = rest := by
  rw [decode]
  cases decodeWord (wordOfBytes hi lo) <;> simp [eq_comm]

/-- The bytes of a word as they lie in memory make that word again (rules R63, R65). -/
theorem wordOfBytes_extract (w : Word) : wordOfBytes (w.extractLsb' 8 8) (w.extractLsb' 0 8) = w :=
  append_extract (m := 8) (n := 8) w

namespace Machine

/-- The step at a fetched word that selects an instruction (rule R92 steps 2 to 4). -/
theorem State.stepBy_decoded {s : State} {w : Word} {i : Instr}
    (run : Instr → State → Host.Outcome State Fault Refusal) (hf : s.fault = none) (hw : s.wait = false)
    (hfetch : s.fetch = .ok w) (hdecode : decodeWord w = some i) : s.stepBy run = run i s.advancePc := by
  rw [s.stepBy_run run hf hw, hfetch, State.attempt_ok, selectInstr_ok hdecode, State.attempt_ok]

/-- The step at a PC where no whole word lies (rule R92 step 1). -/
theorem State.stepBy_fetch_error {s : State} (run : Instr → State → Host.Outcome State Fault Refusal)
    (hf : s.fault = none) (hw : s.wait = false) (hpc : memSize ≤ s.pc.toNat + 1) :
    s.stepBy run = .next (s.takeFault (.addressingFault (lowestOffending s.pc.toNat))) := by
  rw [s.stepBy_run run hf hw, s.fetch_error hpc, State.attempt_error, lowestOffending, memSize]

/-- Settles O34: the fetched word is that of the two bytes, so every way of running instructions runs `i`, and `exec`
and `execWith` agree away from Cxkk. -/
theorem stepRunsDecodedInstruction : Obligations.StepRunsDecodedInstruction := by
  intro s i hf hw hpc hdecode
  obtain ⟨hword, -⟩ := decode_cons_cons_iff.mp hdecode
  have hstep := fun run => State.stepBy_decoded run hf hw (s.fetch_ok hpc) hword
  refine ⟨hstep exec, s.advancePc_pc, advancePc_onlyChanges s, fun byte => ⟨hstep (execWith byte), fun hi => ?_⟩⟩
  calc stepWith byte s = execWith byte i s.advancePc := hstep (execWith byte)
    _ = exec i s.advancePc := execWith_eq_exec _ byte hi
    _ = step s := (hstep exec).symm

/-- Settles O36: the fetch fails before any instruction is selected, so the input byte plays no part. -/
theorem fetchBeyondMemoryFaults : Obligations.FetchBeyondMemoryFaults := by
  intro s hf hw hpc
  have hstep := fun run => State.stepBy_fetch_error run hf hw (show memSize ≤ s.pc.toNat + 1 from Nat.succ_le_succ hpc)
  exact ⟨_, hstep exec, s.takeFault_fault _, fun byte => hstep (execWith byte)⟩

/-- What the customary END_OF_RUN says: the word at PC is a jump to PC. -/
theorem jumpsToItself_iff (s : State) :
    jumpsToItself s = true ↔ ∃ w nnn, s.fetch = .ok w ∧ decodeWord w = some (.jp nnn) ∧ addrOperand nnn = s.pc := by
  unfold jumpsToItself
  constructor
  · intro h
    split at h
    · cases h
    · next w hfetch =>
      split at h
      · next nnn hdecode => exact ⟨w, nnn, hfetch, hdecode, eq_of_beq h⟩
      · cases h
  · rintro ⟨w, nnn, hfetch, hdecode, htarget⟩
    simp [hfetch, hdecode, htarget]

/-- Settles O40: the jump undoes the advance of PC, and nothing else was touched. -/
theorem jumpToSelfLeavesStateUnchanged : Obligations.JumpToSelfLeavesStateUnchanged := by
  intro s hf hw hself
  obtain ⟨w, nnn, hfetch, hdecode, htarget⟩ := (jumpsToItself_iff s).mp hself
  have hjump : exec (.jp nnn) s.advancePc = .next s := by
    rw [exec_jp, htarget]
    rfl
  exact ⟨(State.stepBy_decoded exec hf hw hfetch hdecode).trans hjump,
    fun byte => (State.stepBy_decoded (execWith byte) hf hw hfetch hdecode).trans hjump⟩

/-! ## The placed word -/

theorem fetchablePc_fits (pc : Word) : (fetchablePc pc).toNat + 1 < memSize := by
  unfold fetchablePc
  split
  · assumption
  · decide

/-- The word placed at the fetch address is the word fetched there. -/
theorem State.withWordAtPc_fetch {s : State} (w : Word) (hwf : s.mem.wf = true) : (s.withWordAtPc w).fetch = .ok w := by
  have hfits := fetchablePc_fits s.pc
  have hread (x : Nat) := Memory.read_load (bytesOfWord w) (m := s.mem) (base := (fetchablePc s.pc).toNat) hfits hwf x
  have hhi : (s.withWordAtPc w).mem.read (fetchablePc s.pc).toNat = w.extractLsb' 8 8 := by
    refine (hread _).trans ?_
    simp [bytesOfWord]
  have hlo : (s.withWordAtPc w).mem.read ((fetchablePc s.pc).toNat + 1) = w.extractLsb' 0 8 := by
    refine (hread _).trans ?_
    simp [bytesOfWord]
  rw [State.fetch_ok _ (by rw [State.withWordAtPc_pc]; exact hfits), State.withWordAtPc_pc, hhi, hlo,
    wordOfBytes_extract]

/-- The instruction of a table word is that of its 16-bit word. -/
theorem decodeWord_of_decodeTableWord {nbits w : Nat} {i : Instr} (h : decodeTableWord nbits w = some i) :
    decodeWord (tableWord nbits w) = some i := by
  unfold decodeTableWord at h
  split at h
  · next j rest hdecode =>
    cases h
    obtain ⟨hword, -⟩ := decode_cons_cons_iff.mp hdecode
    rwa [wordOfBytes_extract] at hword
  · cases h

/-- Settles O60: nothing is in the way of the fetch, and it gives the placed word. -/
theorem placedWordIsRunNext : Obligations.PlacedWordIsRunNext := fun s _ _ hwf hdecode =>
  State.stepBy_decoded exec (s.withWordAtPc_fault _) (s.withWordAtPc_wait _) (State.withWordAtPc_fetch _ hwf)
    (decodeWord_of_decodeTableWord hdecode)

end Machine
end Sys2Proof
end

section
/-! PROOFS. The round trips between instructions and words (spec/30_encoding.md rules R94 to R97). A word is rebuilt from
its fields once op, and where a format fixes them the low nibble or the low byte, are known. -/

namespace Sys2Proof

/-! ## From the instruction to the word and back -/

/-- Under op 0x8, and below under 0xE and 0xF, the second level decides (rule R96). -/
theorem decodeWord_formatXYN_op8 (x y n : Nibble) : decodeWord (formatXYN 0x8 x y n) = decodeOp8 x y n := by
  simp [decodeWord]

theorem decodeWord_formatXK_opE (x : Nibble) (kk : Byte) : decodeWord (formatXK 0xE x kk) = decodeOpE x kk := by
  simp [decodeWord]

theorem decodeWord_formatXK_opF (x : Nibble) (kk : Byte) : decodeWord (formatXK 0xF x kk) = decodeOpF x kk := by
  simp [decodeWord]

/-- Every instruction is read back from its word: the fields of a format are the operands it was made from, and op with
the second level gives the row. -/
theorem decodeWord_encode (i : Instr) : decodeWord (encode i) = some i := by
  cases i
  case cls | ret => rfl
  case ldReg x y | orReg x y | andReg x y | xorReg x y | addReg x y | subReg x y | shr x y | subnReg x y | shl x y =>
    exact decodeWord_formatXYN_op8 x y _
  case skp x | sknp x => exact decodeWord_formatXK_opE x _
  case ldVxDt x | ldVxK x | ldDtVx x | ldStVx x | addIVx x | ldFVx x | ldBVx x | ldMemVx x | ldVxMem x =>
    exact decodeWord_formatXK_opF x _
  all_goals simp [encode, decodeWord]

/-- Settles O56: the word is read back, and the two bytes make the word. -/
theorem decodeOfEncodeIsIdentity : Obligations.DecodeOfEncodeIsIdentity := by
  intro i rest
  refine ⟨decodeWord_encode i, decode_cons_cons_iff.mpr ⟨?_, rfl⟩⟩
  rw [wordOfBytes_extract]
  exact decodeWord_encode i

/-! ## From the word to the instruction and back -/

theorem formatA_of_op {w : Word} {op : Nibble} (hop : (fieldOp w).toNat = op.toNat) : formatA op (fieldNnn w) = w := by
  rw [← BitVec.eq_of_toNat_eq hop, formatA_fields]

theorem formatXK_of_op {w : Word} {op : Nibble} (hop : (fieldOp w).toNat = op.toNat) :
    formatXK op (fieldX w) (fieldKk w) = w := by
  rw [← BitVec.eq_of_toNat_eq hop, formatXK_fields]

theorem formatXYN_of_op {w : Word} {op : Nibble} (hop : (fieldOp w).toNat = op.toNat) :
    formatXYN op (fieldX w) (fieldY w) (fieldN w) = w := by
  rw [← BitVec.eq_of_toNat_eq hop, formatXYN_fields]

theorem formatXY_of_op {w : Word} {op n : Nibble} (hop : (fieldOp w).toNat = op.toNat) (hn : fieldN w = n) :
    formatXYN op (fieldX w) (fieldY w) n = w := by
  rw [← hn, formatXYN_of_op hop]

theorem encode_of_decodeOp0 {w : Word} {i : Instr} (h : decodeOp0 w = some i) : encode i = w := by
  unfold decodeOp0 at h
  split_ifs at h with hcls hret
  · cases h; exact hcls.symm
  · cases h; exact hret.symm

theorem eq_ofNat_of_toNat {n : Nibble} {k : Nat} (h : n.toNat = k) : n = BitVec.ofNat 4 k := by
  rw [← h, BitVec.ofNat_toNat, BitVec.setWidth_eq]

theorem encode_of_decodeOp8 {x y n : Nibble} {i : Instr} (h : decodeOp8 x y n = some i) :
    encode i = formatXYN 0x8 x y n := by
  unfold decodeOp8 at h
  split at h
  case h_10 => cases h
  all_goals
    next hn =>
    cases h
    rw [eq_ofNat_of_toNat hn]
    rfl

theorem encode_of_decodeOpE {x : Nibble} {kk : Byte} {i : Instr} (h : decodeOpE x kk = some i) :
    encode i = formatXK 0xE x kk := by
  unfold decodeOpE at h
  split_ifs at h <;> subst kk <;> cases h <;> rfl

theorem encode_of_decodeOpF {x : Nibble} {kk : Byte} {i : Instr} (h : decodeOpF x kk = some i) :
    encode i = formatXK 0xF x kk := by
  unfold decodeOpF at h
  split_ifs at h <;> subst kk <;> cases h <;> rfl

/-- Settles O57: one case an op; under 5 and 9 the low nibble is 0, and the second levels give their words back. -/
theorem encodeOfDecodeIsIdentity : Obligations.EncodeOfDecodeIsIdentity := by
  intro w i h
  unfold decodeWord at h
  split at h
  case h_1 => exact encode_of_decodeOp0 h
  case h_2 hop | h_3 hop | h_11 hop | h_12 hop => cases h; exact formatA_of_op hop
  case h_4 hop | h_5 hop | h_7 hop | h_8 hop | h_13 hop => cases h; exact formatXK_of_op hop
  case h_6 hop | h_10 hop =>
    split_ifs at h with hn
    cases h
    exact formatXY_of_op hop hn
  case h_9 hop => exact (encode_of_decodeOp8 h).trans (formatXYN_of_op hop)
  case h_14 hop => cases h; exact formatXYN_of_op hop
  case h_15 hop => exact (encode_of_decodeOpE h).trans (formatXK_of_op hop)
  case h_16 =>
    have hop : (fieldOp w).toNat = 0xF := by
      simp only [imp_false] at *
      omega
    exact (encode_of_decodeOpF h).trans (formatXK_of_op hop)

/-- Settles O14: no arm of a shift reads y, and each word is the encoding of its shift. -/
theorem shiftsIgnoreFieldY : Obligations.ShiftsIgnoreFieldY := fun _ x y _ =>
  ⟨rfl, rfl, decodeWord_encode (.shr x y), decodeWord_encode (.shl x y)⟩

/-- Settles O59, by evaluating the decoder on the eleven words. -/
theorem sampleWordsDecode : Obligations.SampleWordsDecode := by
  unfold Obligations.SampleWordsDecode
  decide

end Sys2Proof
end

section
/-! PROOFS. Memory as data (spec/20_memory.md, spec/10_state.md): the 16-bit write, the uniqueness of the canonical form,
and what Reset leaves in memory and elsewhere (spec/70_reset_and_hazards.md rule R231). -/

namespace Sys2Proof.Machine

/-! ## The 16-bit write -/

theorem memWrite2_ok (m : Memory) {a : Nat} (w : Word) (h : a + 1 < memSize) :
    memWrite2 m a w = .ok ((m.write a (w.extractLsb' 8 8)).write (a + 1) (w.extractLsb' 0 8)) := by
  rw [memWrite2, memWrite1_ok _ (show a < memSize by omega)]
  exact memWrite1_ok _ h

theorem memWrite2_error (m : Memory) {a : Nat} (w : Word) (h : memSize ≤ a + 1) :
    memWrite2 m a w = .error (.addressingFault (max a memSize)) := by
  unfold memWrite2
  by_cases ha : a < memSize
  · rw [memWrite1_ok _ ha, show max a memSize = a + 1 by omega]
    exact memWrite1_error _ h
  · rw [memWrite1_error _ (Nat.not_lt.mp ha), show max a memSize = a by omega]

theorem highByte_toNat (w : Word) : (w.extractLsb' 8 8).toNat = w.toNat / 256 := by
  have hw : w.toNat < 65536 := w.isLt
  rw [BitVec.extractLsb'_toNat, Nat.shiftRight_eq_div_pow]
  omega

theorem lowByte_toNat (w : Word) : (w.extractLsb' 0 8).toNat = w.toNat % 256 := by
  rw [BitVec.extractLsb'_toNat, Nat.shiftRight_zero]

/-- Settles O48: the two stores are read back one by one by `Memory.read_write`, and the two bytes make the word. -/
theorem wordWriteReadsBack : Obligations.WordWriteReadsBack := by
  intro m addr w hwf
  refine ⟨fun hin => ?inside, ?last, fun hpast => ?past⟩
  case inside =>
    have hwf' : (m.write addr (w.extractLsb' 8 8)).wf = true := Memory.write_wf _ (by rw [memSize]; omega) hwf
    have hread (x : Nat) :
        ((m.write addr (w.extractLsb' 8 8)).write (addr + 1) (w.extractLsb' 0 8)).read x =
          if x = addr + 1 then w.extractLsb' 0 8 else if x = addr then w.extractLsb' 8 8 else m.read x := by
      rw [Memory.read_write hwf', Memory.read_write hwf]
    have hhi := hread addr
    have hlo := hread (addr + 1)
    rw [if_neg (Nat.succ_ne_self addr).symm, if_pos rfl] at hhi
    rw [if_pos rfl] at hlo
    refine ⟨_, memWrite2_ok m w hin, ?_, ?_, ?_, fun a ha ha' => ?_⟩
    · rw [memRead2_ok hin, hhi, hlo, wordOfBytes_extract]
    · rw [hhi, highByte_toNat]
    · rw [hlo, lowByte_toNat]
    · rw [hread a, if_neg ha', if_neg ha]
  case last =>
    rintro rfl
    exact memWrite2_error m w (by decide)
  case past =>
    have hmax : max addr memSize = addr := max_eq_left hpast
    rw [memWrite2_error m w (Nat.le_succ_of_le hpast), hmax]

/-! ## The canonical form is unique -/

theorem Memory.wfFrom_cons_iff {lo k : Nat} {c : Byte} {rest : Memory} :
    Memory.wfFrom lo ((k, c) :: rest) = true ↔
      lo ≤ k ∧ k < memSize ∧ c ≠ Memory.background k ∧ Memory.wfFrom (k + 1) rest = true := by
  simp only [Memory.wfFrom, Bool.and_eq_true, decide_eq_true_eq, and_assoc]

theorem Memory.read_cons_same (k : Nat) (c : Byte) (rest : Memory) : Memory.read ((k, c) :: rest) k = c := by
  rw [Memory.read, if_pos rfl]

theorem Memory.read_cons_above {k a : Nat} (c : Byte) (rest : Memory) (h : k < a) :
    Memory.read ((k, c) :: rest) a = Memory.read rest a := by
  rw [Memory.read, if_neg h.ne, if_neg h.not_gt]

/-- A memory whose form starts at or below the first cell of another and reads the same there has a cell there. -/
theorem Memory.first_le_of_read_eq {k lo k' : Nat} {c c' : Byte} {rest rest' : Memory}
    (h : Memory.wfFrom lo ((k, c) :: rest) = true) (h' : Memory.wfFrom lo ((k', c') :: rest') = true)
    (hread : Memory.read ((k, c) :: rest) k = Memory.read ((k', c') :: rest') k) : k' ≤ k := by
  obtain ⟨-, -, hc, -⟩ := Memory.wfFrom_cons_iff.mp h
  obtain ⟨-, hk', hc', hrest'⟩ := Memory.wfFrom_cons_iff.mp h'
  refine Nat.le_of_not_lt fun hlt => hc ?_
  have hfrom : Memory.wfFrom k' ((k', c') :: rest') = true := Memory.wfFrom_cons_iff.mpr ⟨le_rfl, hk', hc', hrest'⟩
  rw [← Memory.read_cons_same k c rest, hread, Memory.read_of_wfFrom hfrom hlt]

/-- A memory that reads as unlisted everywhere lists nothing. -/
theorem Memory.eq_nil_of_read {m : Memory} {lo : Nat} (h : Memory.wfFrom lo m = true)
    (hread : ∀ a, a < memSize → m.read a = Memory.background a) : m = [] := by
  cases m with
  | nil => rfl
  | cons cell rest =>
    obtain ⟨k, c⟩ := cell
    obtain ⟨-, hk, hc, -⟩ := Memory.wfFrom_cons_iff.mp h
    exact absurd ((Memory.read_cons_same k c rest).symm.trans (hread k hk)) hc

/-- By induction on the cells: the first cells lie at the same address, since each differs there from what an unlisted
address reads as, and hold the same byte; the rests agree above that address by reading, and below it as unlisted. -/
theorem Memory.eq_of_read {m m' : Memory} {lo : Nat} (h : Memory.wfFrom lo m = true)
    (h' : Memory.wfFrom lo m' = true) (hread : ∀ a, a < memSize → m.read a = m'.read a) : m = m' := by
  induction m generalizing m' lo with
  | nil => exact (Memory.eq_nil_of_read h' fun a ha => (hread a ha).symm).symm
  | cons cell rest ih =>
    obtain ⟨k, c⟩ := cell
    cases m' with
    | nil => exact Memory.eq_nil_of_read h hread
    | cons cell' rest' =>
      obtain ⟨k', c'⟩ := cell'
      obtain ⟨-, hk, -, hrest⟩ := Memory.wfFrom_cons_iff.mp h
      obtain ⟨-, hk', -, hrest'⟩ := Memory.wfFrom_cons_iff.mp h'
      obtain rfl : k = k' := Nat.le_antisymm (Memory.first_le_of_read_eq h' h (hread k' hk').symm)
        (Memory.first_le_of_read_eq h h' (hread k hk))
      have hc : c = c' := by
        rw [← Memory.read_cons_same k c rest, hread k hk, Memory.read_cons_same]
      have hrests : rest = rest' := ih hrest hrest' fun a ha => by
        by_cases hak : k < a
        · rw [← Memory.read_cons_above c rest hak, hread a ha, Memory.read_cons_above c' rest' hak]
        · rw [Memory.read_of_wfFrom hrest (by omega), Memory.read_of_wfFrom hrest' (by omega)]
      rw [hc, hrests]

/-- Settles O49: both forms start at address 0, where `Memory.eq_of_read` applies. -/
theorem canonicalMemoryIsUnique : Obligations.CanonicalMemoryIsUnique := fun _ _ hwf hwf' hread =>
  Memory.eq_of_read hwf hwf' hread

/-! ## Reset -/

/-- MEM after Reset: FONT at 0, then the program at 0x200 (rule R231). -/
def resetMemory (glyphs : Font) (program : List Byte) : Memory :=
  (Memory.load [] 0 glyphs.toList).load loadAddress program

theorem resetWith_eq_some (glyphs : Font) {program : List Byte} (h : program.length ≤ 3584) :
    resetWith glyphs program = some { State.reset with mem := resetMemory glyphs program } := resetWith_fits glyphs h

theorem font_wf (glyphs : Font) : (Memory.load [] 0 glyphs.toList).wf = true := by
  refine Memory.load_wf _ ?_ rfl
  rw [Vector.length_toList]
  decide

theorem program_fits_memory {program : List Byte} (h : program.length ≤ 3584) :
    loadAddress + program.length ≤ memSize := by
  rw [loadAddress, memSize]
  omega

theorem resetMemory_wf (glyphs : Font) {program : List Byte} (h : program.length ≤ 3584) :
    (resetMemory glyphs program).wf = true := Memory.load_wf program (program_fits_memory h) (font_wf glyphs)

theorem background_above_font {a : Nat} (h : 80 ≤ a) : Memory.background a = 0 :=
  List.getD_eq_default _ _ (show defaultFontBytes.length ≤ a from h)

/-- A byte of memory after Reset: of the program from 0x200 on, of FONT below 80, and 0 elsewhere (rule R42). -/
theorem resetMemory_read (glyphs : Font) {program : List Byte} (h : program.length ≤ 3584) (a : Nat) :
    (resetMemory glyphs program).read a =
      if 0x200 ≤ a ∧ a < 0x200 + program.length then program.getD (a - 0x200) 0
      else if a < 80 then glyphs.toList.getD a 0 else 0 := by
  have hfont : (0 : Nat) + glyphs.toList.length ≤ memSize := by rw [Vector.length_toList]; decide
  rw [resetMemory, Memory.read_load program (program_fits_memory h) (font_wf glyphs), Memory.read_load _ hfont rfl,
    Vector.length_toList, loadAddress]
  split
  · rfl
  · by_cases ha : a < 80
    · simp [ha]
    · simpa [ha, Memory.read] using background_above_font (Nat.not_lt.mp ha)

/-- Settles O53: the pieces of state other than MEM are those of `State.reset`, and MEM is read off `resetMemory_read`. -/
theorem resetLeavesTableOfValues : Obligations.ResetLeavesTableOfValues := by
  intro glyphs program
  refine ⟨resetWith_too_long glyphs, fun hfits => ⟨_, resetWith_eq_some glyphs hfits, ?_⟩⟩
  have hread := resetMemory_read glyphs hfits
  refine ⟨fun r => ?v, rfl, rfl, fun j => ?stack, rfl, rfl, fun a => ?font, fun a hlo hhi => ?between,
    fun j hj => ?program, fun a hlo hhi => ?above, rfl, Pixels.get_blank, fun k => ?key, rfl, rfl, rfl⟩
  case v => exact Vector.getElem_replicate r.isLt
  case stack => exact Vector.getElem_replicate j.isLt
  case key => exact Vector.getElem_replicate k.isLt
  case font =>
    have ha := a.isLt
    rw [hread a.val, if_neg (by omega), if_pos ha]
    simp
  case between => rw [hread a, if_neg (by omega), if_neg (by omega)]
  case program => rw [hread _, if_pos (by omega), Nat.add_sub_cancel_left]
  case above => rw [hread a, if_neg (by omega), if_neg (by omega)]

/-- Settles O54: the loads of FONT and of a program that fits keep the form, PC is 0x200 and no return address is live. -/
theorem resetMeetsInvariants : Obligations.ResetMeetsInvariants := by
  intro glyphs program s h
  have hfits : program.length ≤ 3584 := by
    refine Nat.le_of_not_lt fun hlong => ?_
    rw [resetWith_too_long glyphs hlong] at h
    cases h
  rw [resetWith_eq_some glyphs hfits] at h
  cases h
  have hpc : (0x200 : Word).toNat ≤ 0x10FE := by decide
  exact ⟨resetMemory_wf glyphs hfits, fun _ => ⟨hpc, fun _ hj => absurd hj (Nat.not_lt_zero _)⟩⟩

/-- With the default FONT and no program every byte is what its address reads as unlisted. -/
theorem resetMemory_default : resetMemory defaultFont [] = [] := by
  refine Memory.eq_nil_of_read (resetMemory_wf defaultFont (Nat.zero_le _)) fun a _ => ?_
  rw [resetMemory_read defaultFont (Nat.zero_le _), if_neg (by simp)]
  split
  · rfl
  · exact (background_above_font (by omega)).symm

/-- Settles O55: nothing is listed after this Reset, so its state is `State.reset`, and O54's invariants are its own. -/
theorem resetStateMeetsInvariants : Obligations.ResetStateMeetsInvariants := by
  have hreset : resetWith defaultFont [] = some State.reset := by
    rw [resetWith_eq_some defaultFont (Nat.zero_le _), resetMemory_default]
    rfl
  exact ⟨hreset, resetMeetsInvariants defaultFont [] State.reset hreset⟩

end Sys2Proof.Machine
end

section
/-! PROOFS. Control transfer, key skips and arithmetic beyond the earlier parts (spec/40_flow.md, spec/41_skip.md,
spec/42_alu.md): the return, the offset jump, the two skips on a key, the subtractions and the shifts, and the random
byte. -/

namespace Sys2Proof.Machine

/-- A part that is the same after all may be left out of a frame. -/
theorem OnlyChanges.drop {p : Part} {ps : List Part} {s t : State} (h : OnlyChanges (p :: ps) s t) (hp : p.Same s t) :
    OnlyChanges ps s t := by
  intro q hq
  by_cases hqp : q = p
  · rw [hqp]; exact hp
  · exact h q (List.not_mem_cons_of_ne_of_not_mem hqp hq)

/-! ## 00EE and Bnnn -/

/-- A return with an address on the stack is a pop followed by the write of PC (rule R120). -/
theorem exec_ret_ok {s t : State} {w : Word} (h : s.pop = .ok (w, t)) : exec .ret s = .next (t.setPc w) := by
  rw [exec_ret, h, State.attempt_ok]

/-- Settles O1: the pop answers the top of the stack and keeps every slot; on an empty stack it raises the underflow. -/
theorem retPopsReturnAddress : Obligations.RetPopsReturnAddress := by
  intro s
  refine ⟨fun hpos => ?_, fun hempty => ?_⟩
  · obtain ⟨w, t, hpop, htop, hsp, hstack, hframe⟩ := s.pop_spec hpos
    refine ⟨_, exec_ret_ok hpop, htop, hsp, fun j _ => ?_, (hframe.trans (t.setPc_onlyChanges w)).mono (by decide)⟩
    simp only [State.setPc_stack, hstack]
  · have hexec : exec .ret s = .next (s.takeFault (.stackFault .underflow)) := by
      rw [exec_ret, s.pop_error hempty, State.attempt_error]
    exact ⟨_, hexec, s.takeFault_fault _⟩

/-- Settles O4: the call leaves the old PC on top of the stack, one deeper; the return takes it from there, whatever PC
is, and the older entries were not touched. -/
theorem returnUndoesCall : Obligations.ReturnUndoesCall := by
  intro s nnn w t hroom hcall
  obtain ⟨u, hpush, hspPush, htopPush, hbelow, hframePush⟩ := s.push_spec s.pc hroom
  rw [exec_call, hpush, State.attempt_ok] at hcall
  cases hcall
  have hspCalled : ((u.setPc (addrOperand nnn)).setPc w).sp.val = s.sp.val + 1 := hspPush
  obtain ⟨a, v, hpop, htopPop, hspPop, hstack, hframePop⟩ :=
    ((u.setPc (addrOperand nnn)).setPc w).pop_spec (by omega)
  have hstack : v.stack = u.stack := hstack
  have hsp : v.sp = s.sp := Fin.ext (by omega)
  have hpc : a = s.pc := by
    simp only [hspCalled, Nat.add_sub_cancel] at htopPop
    exact Option.some.inj (htopPop.symm.trans htopPush)
  refine ⟨_, exec_ret_ok hpop, hpc, hsp, fun j hj => ?live, ?frame⟩
  case live => simpa only [State.setPc_stack, hstack] using hbelow j hj
  case frame =>
    have hchain := (((hframePush.trans (u.setPc_onlyChanges _)).trans (State.setPc_onlyChanges _ w)).trans
      hframePop).trans (v.setPc_onlyChanges a)
    exact (hchain.mono (qs := [.sp, .pc, .stack]) (by decide)).drop hsp

/-- Settles O5: Bnnn is the write of PC alone, of a sum that does not wrap. -/
theorem offsetJumpAddsV0 : Obligations.OffsetJumpAddsV0 := fun s nnn =>
  ⟨_, exec_jpV0 nnn s, offsetTarget_toNat nnn _, s.setPc_onlyChanges _⟩

/-! ## Ex9E and ExA1 -/

theorem keyIndex_eq_ok {b : Byte} {k : Nibble} (h : b.toNat = k.toNat) : keyIndex b = .ok k := by
  have hk : k.toNat < 16 := k.isLt
  have hnumber : b.setWidth 4 = k := by
    rw [← BitVec.toNat_inj, BitVec.toNat_setWidth, h]
    exact Nat.mod_eq_of_lt hk
  rw [keyIndex_ok (by omega), hnumber]

theorem State.skipIf_not_pc (s : State) (c : Bool) : (s.skipIf (!c)).pc = if c then s.pc else s.pc + 2 := by
  cases c <;> rfl

/-- Settles O7: up to 15 the register names a key and the skip is on that key; above 15 naming the key raises the fault
before any skip. -/
theorem keySkipsTestKeyOrFault : Obligations.KeySkipsTestKeyOrFault := by
  intro s x k
  refine ⟨fun hkey => ?_, fun habove => ?_⟩
  · have hk := keyIndex_eq_ok hkey
    have hskp : exec (.skp x) s = .next (s.skipIf (s.getKey k)) := by rw [exec_skp, hk, State.attempt_ok]
    have hsknp : exec (.sknp x) s = .next (s.skipIf (!s.getKey k)) := by rw [exec_sknp, hk, State.attempt_ok]
    exact ⟨⟨_, hskp, s.skipIf_pc _, s.skipIf_onlyChanges _⟩, ⟨_, hsknp, s.skipIf_not_pc _, s.skipIf_onlyChanges _⟩⟩
  · have hk := keyIndex_error habove
    have hskp : exec (.skp x) s = .next (s.takeFault (.keyIndexFault (s.getV x))) := by
      rw [exec_skp, hk, State.attempt_error]
    have hsknp : exec (.sknp x) s = .next (s.takeFault (.keyIndexFault (s.getV x))) := by
      rw [exec_sknp, hk, State.attempt_error]
    exact ⟨⟨_, hskp, s.takeFault_fault _⟩, ⟨_, hsknp, s.takeFault_fault _⟩⟩

/-! ## Subtractions and shifts: the flag first, then Vx -/

/-- An instruction that writes the flag and then Vx leaves the value in Vx even when Vx is VF, and the flag in VF
otherwise (the spec's decision D4). -/
theorem setFlag_setV_outcome {i : Instr} {s : State} {f : Bool} {x : Nibble} {b : Byte}
    (hexec : exec i s = .next ((s.setFlag f).setV x b)) :
    ∃ t, exec i s = .next t ∧ t.getV x = b ∧ (x ≠ vf → t.getV vf = flagByte f) ∧
      (∀ r, r ≠ x → r ≠ vf → t.getV r = s.getV r) ∧ OnlyChanges [.v] s t := by
  refine ⟨_, hexec, State.getV_setV_same _ x b, fun hx => ?_, fun r hx hvf => getV_setFlag_setV_ne s f b hx hvf,
    setFlag_setV_onlyChanges s f x b⟩
  rw [State.getV_setV_ne _ b hx.symm, State.getV_setFlag_vf]

theorem byte_sub_toNat (a b : Byte) : (a - b).toNat = (a.toNat + 256 - b.toNat) % 256 := by
  have hb : b.toNat < 256 := b.isLt
  rw [BitVec.toNat_sub]
  omega

/-- The flag of a subtraction as the byte VF holds (rules R24, R152). -/
theorem flagByte_strictlyGreater (a b : Byte) :
    flagByte (strictlyGreater a b) = if a.toNat > b.toNat then 1 else 0 := by
  simp only [flagByte, strictlyGreater, decide_eq_true_eq]

/-- Settles O12: both are the flag followed by the difference of the old operands, in the one order or the other. -/
theorem subtractionsSetStrictFlag : Obligations.SubtractionsSetStrictFlag := by
  intro s x y
  constructor
  · obtain ⟨t, hexec, hval, hflag, hrest⟩ := setFlag_setV_outcome (exec_subReg x y s)
    exact ⟨t, hexec, by rw [hval, byte_sub_toNat], fun hx => by rw [hflag hx, flagByte_strictlyGreater], hrest⟩
  · obtain ⟨t, hexec, hval, hflag, hrest⟩ := setFlag_setV_outcome (exec_subnReg x y s)
    exact ⟨t, hexec, by rw [hval, byte_sub_toNat], fun hx => by rw [hflag hx, flagByte_strictlyGreater], hrest⟩

theorem flagByte_toNat (b : Bool) : (flagByte b).toNat = b.toNat := by cases b <;> rfl

theorem lowBit_toNat (a : Byte) : (lowBit a).toNat = a.toNat % 2 :=
  (Nat.toNat_testBit a.toNat 0).trans (by omega)

theorem highBit_toNat (a : Byte) : (highBit a).toNat = a.toNat / 128 := by
  have ha : a.toNat < 256 := a.isLt
  exact (Nat.toNat_testBit a.toNat 7).trans (by omega)

/-- Settles O13: both are the flag followed by the shifted value, half of Vx or twice Vx modulo 256. -/
theorem shiftsMoveOneBit : Obligations.ShiftsMoveOneBit := by
  intro s x y
  constructor
  · obtain ⟨t, hexec, hval, hflag, hrest⟩ := setFlag_setV_outcome (exec_shr x y s)
    refine ⟨t, hexec, ?_, fun hx => ?_, hrest⟩
    · rw [hval, BitVec.toNat_ushiftRight, Nat.shiftRight_eq_div_pow, pow_one]
    · rw [hflag hx, flagByte_toNat, lowBit_toNat]
  · obtain ⟨t, hexec, hval, hflag, hrest⟩ := setFlag_setV_outcome (exec_shl x y s)
    refine ⟨t, hexec, ?_, fun hx => ?_, hrest⟩
    · rw [hval, BitVec.toNat_shiftLeft, Nat.shiftLeft_eq, pow_one]
    · rw [hflag hx, flagByte_toNat, highBit_toNat]

/-! ## Cxkk -/

/-- What Cxkk leaves, whatever byte it is given (rule R153). -/
theorem rndWith_spec (byte : Byte) (x : Nibble) (kk : Byte) (s : State) :
    (rndWith byte x kk s).getV x = byte &&& kk ∧ (rndWith byte x kk s).draws = s.draws + 1 ∧
      (∀ j, kk.getLsbD j = false → ((rndWith byte x kk s).getV x).getLsbD j = false) ∧
      (∀ r, r ≠ x → (rndWith byte x kk s).getV r = s.getV r) ∧ OnlyChanges [.v, .draws] s (rndWith byte x kk s) := by
  have hval : (rndWith byte x kk s).getV x = byte &&& kk := s.getV_setV_same x _
  refine ⟨hval, rfl, fun j hj => ?_, fun r hr => s.getV_setV_ne _ hr, rndWith_onlyChanges byte x kk s⟩
  rw [hval, BitVec.getLsbD_and, hj, Bool.and_false]

/-- Settles O15: Step(rnd) and `exec` differ in where the byte comes from alone. -/
theorem randomByteIsMasked : Obligations.RandomByteIsMasked := fun s x kk =>
  ⟨fun byte => ⟨_, execWith_rnd s byte x kk, rndWith_spec byte x kk s⟩,
    ⟨_, exec_rnd x kk s, rndWith_spec (Config.randomByte s.draws) x kk s⟩⟩

end Sys2Proof.Machine
end

section
/-! PROOFS. Stores seen later, the sum in I, draws and the key wait (spec/43_index_memory.md, spec/44_display.md,
spec/45_timers_keys.md): Fx65 after Fx55, the fetch after a store, Fx1E, the draw of no rows, the second draw, Fx0A. -/

namespace Sys2Proof.Machine

/-- Settles O17: a sum of 16-bit words, written to I alone. -/
theorem addToIndexKeepsSixteenBits : Obligations.AddToIndexKeepsSixteenBits := by
  intro s x
  refine ⟨_, exec_addIVx x s, ?_, s.setI_onlyChanges _⟩
  rw [State.setI_i, BitVec.toNat_add, byteOperand_toNat]

/-- Settles O28: Fx0A is the write of WAIT and WX alone. -/
theorem keyWaitLatchesRegister : Obligations.KeyWaitLatchesRegister := fun s x =>
  ⟨_, exec_ldVxK x s, s.beginWait_wait x, s.beginWait_wx x, s.beginWait_onlyChanges x⟩

/-! ## After a store -/

/-- Settles O21: Fx65 reads at I + r what Fx55 stored there from Vr, so no register is changed by the two. -/
theorem loadUndoesStore : Obligations.LoadUndoesStore := by
  intro s x t hwf hin hstore
  obtain ⟨hstored, -⟩ := registersStoredAtIndex s x hwf
  obtain ⟨t', hexec, hbytes, -, hframeStore⟩ := hstored hin
  obtain rfl : t' = t := Host.Outcome.next.inj (hexec.symm.trans hstore)
  have haddr (k : Nat) : t'.dataAddr k = s.dataAddr k := by
    rw [State.dataAddr, State.dataAddr, show t'.i = s.i from hframeStore .i (by decide)]
  obtain ⟨hloaded, -⟩ := registersLoadedFromIndex t' x
  obtain ⟨u, hload, hlow, hhigh, hframeLoad⟩ := hloaded (by rw [haddr]; exact hin)
  refine ⟨u, hload, ((hframeStore.trans hframeLoad).mono (qs := [.v, .mem]) (by decide)).drop fun r => ?_⟩
  by_cases hr : r.toNat ≤ x.toNat
  · rw [hlow r hr, haddr, hbytes r hr]
  · exact (hhigh r (by omega)).trans (hframeStore .v (by decide) r)

/-- The memory after Fx55, byte by byte (rule R164). -/
theorem StoredAtIndex.read_firstRegs {s : State} {x : Nibble} {m : Memory} (h : StoredAtIndex s (s.firstRegs x) m)
    (a : Nat) : m.read a = regsStoredByte s x a := by
  obtain ⟨hbytes, hothers⟩ := h
  rw [s.firstRegs_length] at hbytes hothers
  have hx : x.toNat < 16 := x.isLt
  unfold regsStoredByte
  split
  · next hin =>
    have hj : (BitVec.ofNat 4 (a - s.i.toNat)).toNat = a - s.i.toNat := by
      rw [BitVec.toNat_ofNat]
      omega
    have haddr : s.dataAddr (a - s.i.toNat) = a := by
      rw [State.dataAddr]
      omega
    have hbyte := hbytes (a - s.i.toNat) (by omega)
    rwa [haddr, ← hj, s.firstRegs_getD x _ (by omega)] at hbyte
  · next hout =>
    refine hothers a ?_
    simp only [State.dataAddr]
    omega

/-- The memory after Fx33, byte by byte (rule R163). -/
theorem StoredAtIndex.read_bcdDigits {s : State} {x : Nibble} {m : Memory}
    (h : StoredAtIndex s (bcdDigits (s.getV x)) m) (a : Nat) : m.read a = digitsStoredByte s x a := by
  obtain ⟨hbytes, hothers⟩ := h
  rw [bcdDigits_length] at hbytes hothers
  unfold digitsStoredByte
  split_ifs with h0 h1 h2
  · rw [h0]; exact hbytes 0 (by decide)
  · rw [h1]; exact hbytes 1 (by decide)
  · rw [h2]; exact hbytes 2 (by decide)
  · refine hothers a ?_
    simp only [State.dataAddr]
    omega

/-- A fetch at the old PC gives the word of the two bytes memory now holds there (rule R76). -/
theorem State.fetch_of_read {s t : State} {byteAt : Nat → Byte} (hin : s.pc.toNat + 1 < memSize) (hpc : t.pc = s.pc)
    (hread : ∀ a, t.mem.read a = byteAt a) :
    t.fetch = .ok (wordOfBytes (byteAt s.pc.toNat) (byteAt (s.pc.toNat + 1))) := by
  rw [t.fetch_ok (by rw [hpc]; exact hin), hpc, hread, hread]

/-- Settles O22: a store moves no PC, and after it memory reads byte by byte as the stored bytes say. -/
theorem storeSeenByNextFetch : Obligations.StoreSeenByNextFetch := by
  intro s x hwf hpc
  obtain ⟨hregs, -⟩ := storeAtIndex_outcome (exec_ldMemVx x s) (s.firstRegs_length x) hwf
  obtain ⟨hdigits, -⟩ := storeAtIndex_outcome (exec_ldBVx x s) (bcdDigits_length _) hwf
  refine ⟨fun hin => ?_, fun hin => ?_⟩
  · obtain ⟨t, hexec, hstored, hframe⟩ := hregs hin
    exact ⟨t, hexec, State.fetch_of_read hpc (hframe .pc (by decide)) hstored.read_firstRegs⟩
  · obtain ⟨t, hexec, hstored, hframe⟩ := hdigits hin
    exact ⟨t, hexec, State.fetch_of_read hpc (hframe .pc (by decide)) hstored.read_bcdDigits⟩

/-! ## Draws -/

theorem State.drawAtIndex_zero (s : State) (x y : Nibble) : s.drawAtIndex x y 0 = (s.pix, false) := drawSprite_nil ..

/-- Settles O25: no row is read, the display drawn is the old one, and VF takes the collision bit 0 (rule R174). -/
theorem drawOfNoRowsClearsFlag : Obligations.DrawOfNoRowsClearsFlag := by
  intro s x y
  have hexec := exec_drw_ok (s := s) (n := 0) x y (.inl rfl)
  rw [s.drawAtIndex_zero] at hexec
  exact ⟨_, hexec, State.getV_setFlag_vf _ false, fun r hr => State.getV_setFlag_ne _ false hr,
    State.setFlag_onlyChanges s false⟩

/-- A byte that is not 0 has a 1 bit, at a column from 0 to 7. -/
theorem byte_ne_zero_iff (b : Byte) : b ≠ 0 ↔ ∃ col, col < 8 ∧ b.getLsbD (7 - col) = true := by
  have hzero (j : Nat) : (0 : Byte).getLsbD j = false := BitVec.getLsbD_zero
  constructor
  · intro hb
    by_contra hnone
    refine hb (BitVec.eq_of_getLsbD_eq fun j hj => ?_)
    rw [hzero, Bool.eq_false_iff]
    exact fun hbit => hnone ⟨7 - j, by omega, by rwa [show 7 - (7 - j) = j by omega]⟩
  · rintro ⟨col, -, hbit⟩ rfl
    rw [hzero] at hbit
    cases hbit

/-- A sprite of at most 32 rows shows a 1 bit somewhere exactly when one of its rows is not 0. -/
theorem exists_spritePixel_iff (m : Memory) (base x0 y0 : Nat) {n : Nat} (hn : n ≤ 32) :
    (∃ cx cy, spritePixel m base n x0 y0 cx cy = true) ↔ ∃ k, k < n ∧ m.read (base + k) ≠ 0 := by
  simp only [spritePixel, Bool.and_eq_true, decide_eq_true_eq, byte_ne_zero_iff]
  constructor
  · rintro ⟨cx, cy, ⟨hcol, hrow⟩, hbit⟩
    exact ⟨_, hrow, _, hcol, hbit⟩
  · rintro ⟨k, hk, col, hcol, hbit⟩
    have hcolumn : ((wrapCol x0 col).val + 64 - x0 % 64) % 64 = col := by
      simp only [wrapCol]
      omega
    have hrow : ((wrapRow y0 k).val + 32 - y0 % 32) % 32 = k := by
      simp only [wrapRow]
      omega
    refine ⟨wrapCol x0 col, wrapRow y0 k, ?_⟩
    rw [hcolumn, hrow]
    exact ⟨⟨hcol, hk⟩, hbit⟩

/-- The state after a draw whose sprite is inside memory. -/
def State.afterDraw (s : State) (x y n : Nibble) : State :=
  (s.setPix (s.drawAtIndex x y n).1).setFlag (s.drawAtIndex x y n).2

theorem State.afterDraw_getV_ne (s : State) {x y n r : Nibble} (h : r ≠ vf) : (s.afterDraw x y n).getV r = s.getV r :=
  State.getV_setFlag_ne _ _ h

theorem State.afterDraw_getV_vf_eq_one (s : State) (x y n : Nibble) :
    (s.afterDraw x y n).getV vf = 1 ↔ (s.drawAtIndex x y n).2 = true := by
  rw [State.afterDraw, State.getV_setFlag_vf]
  cases (s.drawAtIndex x y n).2 <;> decide

theorem State.afterDraw_pix_get (s : State) (x y n : Nibble) (cx : Fin 64) (cy : Fin 32) :
    (s.afterDraw x y n).pix.get cx cy =
      (s.pix.get cx cy ^^ spritePixel s.mem s.i.toNat n.toNat (s.getV x).toNat (s.getV y).toNat cx cy) :=
  s.drawAtIndex_get x y n cx cy

/-- Nothing collides on a blank display. -/
theorem State.drawAtIndex_blank {s : State} (x y n : Nibble) (hblank : ∀ cx cy, s.pix.get cx cy = false) :
    (s.drawAtIndex x y n).2 = false := by
  rw [Bool.eq_false_iff, ne_eq, s.drawAtIndex_collides]
  rintro ⟨cx, cy, hlit, -⟩
  exact Bool.false_ne_true ((hblank cx cy).symm.trans hlit)

/-- Settles O26: the position registers are not VF, so the second draw puts the same sprite at the same place: it toggles
the same pixels back, and on a display that held nothing but the sprite it collides wherever the sprite has a 1 bit. -/
theorem drawTwiceRestoresDisplay : Obligations.DrawTwiceRestoresDisplay := by
  intro s x y n t hx hy hin hdraw
  obtain rfl : s.afterDraw x y n = t := Host.Outcome.next.inj ((exec_drw_ok x y hin).symm.trans hdraw)
  have hn : n.toNat < 16 := n.isLt
  have hsprite (cx : Fin 64) (cy : Fin 32) :
      spritePixel (s.afterDraw x y n).mem (s.afterDraw x y n).i.toNat n.toNat ((s.afterDraw x y n).getV x).toNat
        ((s.afterDraw x y n).getV y).toNat cx cy =
      spritePixel s.mem s.i.toNat n.toNat (s.getV x).toNat (s.getV y).toNat cx cy := by
    rw [s.afterDraw_getV_ne hx, s.afterDraw_getV_ne hy]
    rfl
  refine ⟨fun hblank => ?first, (s.afterDraw x y n).afterDraw x y n, exec_drw_ok x y hin,
    Pixels.ext_get fun cx cy => ?restored, fun hblank => ?second⟩
  case first => rw [State.afterDraw, State.getV_setFlag_vf, State.drawAtIndex_blank x y n hblank]; rfl
  case restored =>
    rw [State.afterDraw_pix_get, hsprite, State.afterDraw_pix_get, Bool.xor_assoc, Bool.xor_self, Bool.xor_false]
  case second =>
    rw [State.afterDraw_getV_vf_eq_one, State.drawAtIndex_collides,
      ← exists_spritePixel_iff s.mem s.i.toNat (s.getV x).toNat (s.getV y).toNat (show n.toNat ≤ 32 by omega)]
    simp only [hsprite, State.afterDraw_pix_get, hblank, Bool.false_xor, and_self]

end Sys2Proof.Machine
end

section
/-! PROOFS. What has no influence (spec/10_state.md rule R23, spec/90_conflicts.md C11): a register that an instruction
neither reads nor writes, and the keys away from Ex9E and ExA1. Each is a statement about two runs, from a state and from
the state with that register or key replaced; the checked operations and the updates are shown to go through alike. -/

namespace Sys2Proof.Machine

/-! ## Checked operations and updates with registers and keys replaced -/

/-- The state with its registers and its keys replaced, by values computed from the old ones. -/
def State.mapRegsKeys (s : State) (fv : Vector Byte 16 → Vector Byte 16) (fk : Vector Bool 16 → Vector Bool 16) :
    State := { s with v := fv s.v, key := fk s.key }

theorem State.setV_eq_mapRegsKeys (s : State) (r : Nibble) (b : Byte) :
    s.setV r b = s.mapRegsKeys (fun v => v.set r.toNat b r.isLt) id := rfl

theorem State.setKey_eq_mapRegsKeys (s : State) (k : Nibble) (b : Bool) :
    s.setKey k b = s.mapRegsKeys id (fun key => key.set k.toNat b k.isLt) := rfl

section
variable {s t : State} (fv : Vector Byte 16 → Vector Byte 16) (fk : Vector Bool 16 → Vector Bool 16)

/-- A pop looks at SP and the stack alone. -/
theorem State.pop_mapRegsKeys {p : Word × State} (h : s.pop = .ok p) :
    (s.mapRegsKeys fv fk).pop = .ok (p.1, p.2.mapRegsKeys fv fk) := by
  have hne := (State.sp_pos_of_pop h).ne'
  rw [← Except.ok.inj ((s.pop_ok hne).symm.trans h)]
  exact (s.mapRegsKeys fv fk).pop_ok hne

/-- A push looks at SP and the stack alone. -/
theorem State.push_mapRegsKeys {w : Word} (h : s.push w = .ok t) :
    (s.mapRegsKeys fv fk).push w = .ok (t.mapRegsKeys fv fk) := by
  have hlt := State.sp_lt_of_push h
  rw [← Except.ok.inj ((s.push_ok w hlt).symm.trans h)]
  exact (s.mapRegsKeys fv fk).push_ok w hlt

/-- 00EE goes through alike with registers and keys replaced. -/
theorem exec_ret_mapRegsKeys (h : exec .ret s = .next t) (hf : t.fault = none) :
    exec .ret (s.mapRegsKeys fv fk) = .next (t.mapRegsKeys fv fk) := by
  obtain ⟨p, hpop, hk⟩ := State.attempt_unfaulted h hf
  cases hk
  exact exec_ret_ok (State.pop_mapRegsKeys fv fk hpop)

/-- 2nnn goes through alike with registers and keys replaced. -/
theorem exec_call_mapRegsKeys {nnn : Addr12} (h : exec (.call nnn) s = .next t) (hf : t.fault = none) :
    exec (.call nnn) (s.mapRegsKeys fv fk) = .next (t.mapRegsKeys fv fk) := by
  obtain ⟨u, hpush, hk⟩ := State.attempt_unfaulted h hf
  cases hk
  have hpush' := State.push_mapRegsKeys fv fk hpush
  rw [exec_call, show (s.mapRegsKeys fv fk).pc = s.pc from rfl, hpush', State.attempt_ok]
  rfl

end

/-- A checked operation that goes through runs the rest. -/
theorem State.attempt_of_ok {α : Type} {s : State} {r : Except Fault α} {a : α}
    {k : α → Host.Outcome State Fault Refusal} (h : r = .ok a) : s.attempt r k = k a := by
  rw [h, State.attempt_ok]

/-! ## Keys -/

theorem State.skipIf_setKey (s : State) (c : Bool) (k : Nibble) (b : Bool) :
    (s.setKey k b).skipIf c = (s.skipIf c).setKey k b := by cases c <;> rfl

theorem State.loadRegs_setKey (s : State) (j : Nat) (bs : List Byte) (k : Nibble) (b : Bool) :
    (s.setKey k b).loadRegs j bs = (s.loadRegs j bs).setKey k b := by
  induction bs generalizing s j with
  | nil => rfl
  | cons c bs ih => exact ih (s.setV _ c) (j + 1)

/-- Settles O45: away from the two key skips no operand and no checked operation looks at a key, and every update leaves
the keys where they are. -/
theorem keysInfluenceOnlyKeySkips : Obligations.KeysInfluenceOnlyKeySkips := by
  intro i s t k b h hf hskp hsknp
  cases i
  case skp x => exact absurd rfl (hskp x)
  case sknp x => exact absurd rfl (hsknp x)
  case ret =>
    simp only [State.setKey_eq_mapRegsKeys]
    exact exec_ret_mapRegsKeys _ _ h hf
  case call =>
    simp only [State.setKey_eq_mapRegsKeys]
    exact exec_call_mapRegsKeys _ _ h hf
  case seImm | sneImm | seReg | sneReg =>
    cases h
    rw [← s.skipIf_setKey]
    rfl
  case drw =>
    obtain ⟨rows, hrows, hk⟩ := State.attempt_unfaulted h hf
    cases hk
    exact State.attempt_of_ok hrows
  case ldBVx | ldMemVx =>
    obtain ⟨m, hwrite, hk⟩ := State.attempt_unfaulted h hf
    cases hk
    exact State.attempt_of_ok hwrite
  case ldVxMem =>
    obtain ⟨bs, hread, hk⟩ := State.attempt_unfaulted h hf
    cases hk
    rw [← s.loadRegs_setKey 0 bs k b]
    exact State.attempt_of_ok hread
  all_goals cases h; rfl

/-! ## Registers -/

theorem State.setV_comm (s : State) {q r : Nibble} (b c : Byte) (h : r ≠ q) :
    (s.setV r b).setV q c = (s.setV q c).setV r b := by
  have hne : r.toNat ≠ q.toNat := fun e => h (BitVec.eq_of_toNat_eq e)
  simp only [State.setV, Vector.set_comm b c hne]

/-- A replaced register is not an operand under another number. -/
theorem State.getV_setV_other (s : State) {q r : Nibble} (b : Byte) (h : r ≠ q) : (s.setV r b).getV q = s.getV q :=
  s.getV_setV_ne b h.symm

theorem State.skipIf_setV (s : State) (c : Bool) (r : Nibble) (b : Byte) :
    (s.setV r b).skipIf c = (s.skipIf c).setV r b := by cases c <;> rfl

theorem State.setFlag_setV (s : State) {r : Nibble} (b : Byte) (f : Bool) (h : r ≠ vf) :
    (s.setV r b).setFlag f = (s.setFlag f).setV r b := s.setV_comm b _ h

theorem State.firstRegs_setV (s : State) {x r : Nibble} (b : Byte) (h : x.toNat < r.toNat) :
    (s.setV r b).firstRegs x = s.firstRegs x := by
  refine List.map_congr_left fun j hj => s.getV_setV_other b fun e => ?_
  have hj : j < x.toNat + 1 := List.mem_range.mp hj
  have hr : r.toNat = j % 16 := by rw [e, BitVec.toNat_ofNat]
  omega

theorem State.loadRegs_setV (s : State) {r : Nibble} (b : Byte) {j : Nat} {bs : List Byte}
    (h : j + bs.length ≤ r.toNat) : (s.setV r b).loadRegs j bs = (s.loadRegs j bs).setV r b := by
  induction bs generalizing s j with
  | nil => rfl
  | cons c bs ih =>
    have hr : r.toNat < 16 := r.isLt
    rw [List.length_cons] at h
    have hne : r ≠ BitVec.ofNat 4 j := fun e => by
      have hrj : r.toNat = j % 16 := by rw [e, BitVec.toNat_ofNat]
      omega
    rw [State.loadRegs, State.loadRegs, s.setV_comm b c hne]
    exact ih (s.setV _ c) (by omega)

/-- Settles O44: the operands are read from other registers, the checked operations do not look at this one, and the
writes go to other registers or to other pieces of state. -/
theorem unreadRegisterHasNoInfluence : Obligations.UnreadRegisterHasNoInfluence := by
  intro i s t r b h hf hread hwrite
  cases i <;>
    simp only [readsReg, writesReg, Bool.or_eq_false_iff, beq_eq_false_iff_ne, decide_eq_false_iff_not, not_le]
      at hread hwrite
  case ret =>
    simp only [State.setV_eq_mapRegsKeys]
    exact exec_ret_mapRegsKeys _ _ h hf
  case call =>
    simp only [State.setV_eq_mapRegsKeys]
    exact exec_call_mapRegsKeys _ _ h hf
  case cls | jp | ldI | ldVxK => cases h; rfl
  case jpV0 | ldDtVx | ldStVx | addIVx | ldFVx =>
    cases h
    simp only [exec_jpV0, exec_ldDtVx, exec_ldStVx, exec_addIVx, exec_ldFVx, s.getV_setV_other b hread]
    rfl
  case seImm | sneImm =>
    cases h
    simp only [exec_seImm, exec_sneImm, s.getV_setV_other b hread, s.skipIf_setV]
  case seReg | sneReg =>
    cases h
    simp only [exec_seReg, exec_sneReg, s.getV_setV_other b hread.1, s.getV_setV_other b hread.2, s.skipIf_setV]
  case ldImm | ldVxDt =>
    cases h
    exact congrArg Host.Outcome.next (s.setV_comm b _ hwrite)
  case rnd =>
    cases h
    exact congrArg (Host.Outcome.next ∘ State.drawn) (s.setV_comm b _ hwrite)
  case addImm | ldReg =>
    cases h
    simp only [exec_addImm, exec_ldReg, s.getV_setV_other b hread, s.setV_comm b _ hwrite]
  case orReg | andReg | xorReg =>
    cases h
    simp only [exec_orReg, exec_andReg, exec_xorReg, s.getV_setV_other b hread.1, s.getV_setV_other b hread.2,
      s.setV_comm b _ hwrite]
  case addReg =>
    cases h
    simp only [exec_addReg, s.getV_setV_other b hread.1, s.getV_setV_other b hread.2, s.setV_comm b _ hwrite.1,
      State.setFlag_setV _ b _ hwrite.2]
  case subReg | subnReg =>
    cases h
    simp only [exec_subReg, exec_subnReg, s.getV_setV_other b hread.1, s.getV_setV_other b hread.2,
      s.setFlag_setV b _ hwrite.2, State.setV_comm _ b _ hwrite.1]
  case shr | shl =>
    cases h
    simp only [exec_shr, exec_shl, s.getV_setV_other b hread, s.setFlag_setV b _ hwrite.2,
      State.setV_comm _ b _ hwrite.1]
  case skp | sknp =>
    obtain ⟨k, hk, hcont⟩ := State.attempt_unfaulted h hf
    cases hcont
    simp only [exec_skp, exec_sknp, s.getV_setV_other b hread, hk, State.attempt_ok, State.setV_getKey, s.skipIf_setV]
  case drw =>
    obtain ⟨rows, hrows, hk⟩ := State.attempt_unfaulted h hf
    cases hk
    rw [← State.setFlag_setV _ b _ hwrite, ← s.getV_setV_other b hread.1, ← s.getV_setV_other b hread.2]
    exact State.attempt_of_ok hrows
  case ldBVx =>
    obtain ⟨m, hm, hk⟩ := State.attempt_unfaulted h hf
    cases hk
    rw [← s.getV_setV_other b hread] at hm
    exact State.attempt_of_ok hm
  case ldMemVx =>
    obtain ⟨m, hm, hk⟩ := State.attempt_unfaulted h hf
    cases hk
    rw [← s.firstRegs_setV b hread] at hm
    exact State.attempt_of_ok hm
  case ldVxMem x =>
    obtain ⟨bs, hbs, hk⟩ := State.attempt_unfaulted h hf
    cases hk
    have hlen := memReadBytes_length hbs
    rw [← s.loadRegs_setV b (j := 0) (by omega)]
    exact State.attempt_of_ok hbs

end Sys2Proof.Machine
end
